-- ==== Sys2Proof/Word.lean ====
section
/-! DEFINITION. The word types of the Nilsimsa hash core: bytes, 32-bit command and data words, 64-bit counters
(spec/00_scope.md R6, R7). All are unsigned; nothing in this hardware is sign-extended (R7). -/

namespace Sys2Proof

/-- A byte: an entry of `TRAN` or `DBUF`, a window value, a byte operand, a bucket number. -/
abbrev Byte := BitVec 8

/-- A command word (`CMD_W` = 32) or the data of a response (R6, R71). -/
abbrev Word := BitVec 32

/-- A counter of `W` = 64 bits: `CNT` or one `ACC[i]` (R6, R22, R23). -/
abbrev Count := BitVec 64

end Sys2Proof
end

