-- ==== Sys2Proof/Syntax.lean ====
section
/-! DEFINITION. The commands of NHC-CMD32 version 1: one constructor per row of spec/opcode_table.json
(spec/30_encoding.md R75), each operand at exactly the width of its field (R73, R74). -/

namespace Sys2Proof

/-- A legal command. Because every operand has its field's exact type, every term is well formed: no index is out of range
(spec/20_memory.md R50) and a seed outside 0..255 cannot be expressed (R77). The slot number of MIXn and the byte count of
UPDn are in the opcode, so they are in the constructor (R74). -/
inductive Instr where
  /-- NOP, opcode 0x00, format FN (R200). -/
  | nop
  /-- INIT, opcode 0x01, format FN (R154). -/
  | init
  /-- STAT, opcode 0x02, format FS: `clr` = cmd[0] (R201). -/
  | stat (clr : Bool)
  /-- GEN, opcode 0x08, format F1: `seed` = cmd[7:0] (R103). -/
  | gen (seed : Byte)
  /-- TWR, opcode 0x09, format F2: `idx` = cmd[7:0], `val` = cmd[15:8] (R104). -/
  | twr (idx val : Byte)
  /-- TRD, opcode 0x0A, format F1: `idx` = cmd[7:0] (R105). -/
  | trd (idx : Byte)
  /-- TCHK, opcode 0x0B, format FN (R106). -/
  | tchk
  /-- UPD1, opcode 0x11, format F1: `d0` = cmd[7:0] (R155). -/
  | upd1 (d0 : Byte)
  /-- UPD2, opcode 0x12, format F2: `d0` = cmd[7:0], `d1` = cmd[15:8] (R156). -/
  | upd2 (d0 d1 : Byte)
  /-- UPD3, opcode 0x13, format F3: `d0` = cmd[7:0], `d1` = cmd[15:8], `d2` = cmd[23:16] (R157). -/
  | upd3 (d0 d1 d2 : Byte)
  /-- DIG, opcode 0x18, format FN (R187). -/
  | dig
  /-- DRD, opcode 0x19, format FW: `ws` = cmd[2:0] (R188). -/
  | drd (ws : BitVec 3)
  /-- ARD, opcode 0x1A, format FH: `idx` = cmd[7:0], `h` = cmd[8] (R203). -/
  | ard (idx : Byte) (h : Bool)
  /-- CRD, opcode 0x1B, format FH0: `h` = cmd[8] (R202). -/
  | crd (h : Bool)
  /-- WRD, opcode 0x1C, format FN (R204). -/
  | wrd
  /-- MIX0, opcode 0x20, format F3: `a` = cmd[7:0], `b` = cmd[15:8], `c` = cmd[23:16] (R132). -/
  | mix0 (a b c : Byte)
  /-- MIX1, opcode 0x21, format F3 (R133). -/
  | mix1 (a b c : Byte)
  /-- MIX2, opcode 0x22, format F3 (R134). -/
  | mix2 (a b c : Byte)
  /-- MIX3, opcode 0x23, format F3 (R135). -/
  | mix3 (a b c : Byte)
  /-- MIX4, opcode 0x24, format F3 (R136). -/
  | mix4 (a b c : Byte)
  /-- MIX5, opcode 0x25, format F3 (R137). -/
  | mix5 (a b c : Byte)
  /-- MIX6, opcode 0x26, format F3 (R138). -/
  | mix6 (a b c : Byte)
  /-- MIX7, opcode 0x27, format F3 (R139). -/
  | mix7 (a b c : Byte)
deriving DecidableEq, Repr

end Sys2Proof
end

