-- ==== Sys2Proof/Decode.lean ====
section
/-! DEFINITION. Decoding of command words, total on all 2^32 words and rejecting by name, and after it the encoder
(spec/30_encoding.md R72 to R79). The match and mask table of R75 stands beside them; that the field-by-field decoder agrees
with it is an obligation. -/

namespace Sys2Proof

/-- Why a word is illegal (R77). -/
inductive IllegalWord where
  /-- `OPC` is not in the map of R75. -/
  | unassignedOpcode
  /-- The opcode is legal but a bit that its format reserves is 1. -/
  | reservedBit
deriving DecidableEq, Repr

/-- What a word decodes to (R76): exactly one command, or illegal. -/
inductive Decoded where
  | command (i : Instr)
  | illegal (why : IllegalWord)
deriving DecidableEq, Repr

/-! ### Fields of a word (R72, R73) -/

/-- `OPC` = cmd[31:24]. -/
def opc (w : Word) : Byte := w.extractLsb' 24 8

/-- `B2` = cmd[23:16]. -/
def b2 (w : Word) : Byte := w.extractLsb' 16 8

/-- `B1` = cmd[15:8]. -/
def b1 (w : Word) : Byte := w.extractLsb' 8 8

/-- `B0` = cmd[7:0]. -/
def b0 (w : Word) : Byte := w.extractLsb' 0 8

/-- The low bit of a byte: `H` when the byte is `B1`, `CLR` when it is `B0`. -/
def lowBit (b : Byte) : Bool := b.getLsbD 0

/-- The low three bits of a byte: `WS` when the byte is `B0`. -/
def lowThree (b : Byte) : BitVec 3 := b.extractLsb' 0 3

/-- The seven bits above the low bit, reserved in formats FS (of `B0`) and FH, FH0 (of `B1`). -/
def highSeven (b : Byte) : BitVec 7 := b.extractLsb' 1 7

/-- The five bits above the low three, reserved in format FW (of `B0`). -/
def highFive (b : Byte) : BitVec 5 := b.extractLsb' 3 5

/-- A command if every reserved bit of its format is 0, else illegal (R77). -/
def ifReservedZero (reservedZero : Bool) (i : Instr) : Decoded :=
  if reservedZero then .command i else .illegal .reservedBit

/-- Format FN: bits [23:0] are reserved. -/
def reservedFN (w : Word) : Bool := b2 w == 0 && b1 w == 0 && b0 w == 0

/-- Format FS: bits [23:1] are reserved. -/
def reservedFS (w : Word) : Bool := b2 w == 0 && b1 w == 0 && highSeven (b0 w) == 0

/-- Format F1: bits [23:8] are reserved. -/
def reservedF1 (w : Word) : Bool := b2 w == 0 && b1 w == 0

/-- Format F2: bits [23:16] are reserved. -/
def reservedF2 (w : Word) : Bool := b2 w == 0

/-- Format FH: bits [23:9] are reserved. -/
def reservedFH (w : Word) : Bool := b2 w == 0 && highSeven (b1 w) == 0

/-- Format FH0: bits [23:9] and [7:0] are reserved. -/
def reservedFH0 (w : Word) : Bool := b2 w == 0 && highSeven (b1 w) == 0 && b0 w == 0

/-- Format FW: bits [23:3] are reserved. -/
def reservedFW (w : Word) : Bool := b2 w == 0 && b1 w == 0 && highFive (b0 w) == 0

/-- The decoder (R75 to R77): it depends on the word alone (R79), and format F3 has no reserved bit. -/
def decode (w : Word) : Decoded :=
  match (opc w).toNat with
  | 0x00 => ifReservedZero (reservedFN w) .nop
  | 0x01 => ifReservedZero (reservedFN w) .init
  | 0x02 => ifReservedZero (reservedFS w) (.stat (lowBit (b0 w)))
  | 0x08 => ifReservedZero (reservedF1 w) (.gen (b0 w))
  | 0x09 => ifReservedZero (reservedF2 w) (.twr (b0 w) (b1 w))
  | 0x0A => ifReservedZero (reservedF1 w) (.trd (b0 w))
  | 0x0B => ifReservedZero (reservedFN w) .tchk
  | 0x11 => ifReservedZero (reservedF1 w) (.upd1 (b0 w))
  | 0x12 => ifReservedZero (reservedF2 w) (.upd2 (b0 w) (b1 w))
  | 0x13 => .command (.upd3 (b0 w) (b1 w) (b2 w))
  | 0x18 => ifReservedZero (reservedFN w) .dig
  | 0x19 => ifReservedZero (reservedFW w) (.drd (lowThree (b0 w)))
  | 0x1A => ifReservedZero (reservedFH w) (.ard (b0 w) (lowBit (b1 w)))
  | 0x1B => ifReservedZero (reservedFH0 w) (.crd (lowBit (b1 w)))
  | 0x1C => ifReservedZero (reservedFN w) .wrd
  | 0x20 => .command (.mix0 (b0 w) (b1 w) (b2 w))
  | 0x21 => .command (.mix1 (b0 w) (b1 w) (b2 w))
  | 0x22 => .command (.mix2 (b0 w) (b1 w) (b2 w))
  | 0x23 => .command (.mix3 (b0 w) (b1 w) (b2 w))
  | 0x24 => .command (.mix4 (b0 w) (b1 w) (b2 w))
  | 0x25 => .command (.mix5 (b0 w) (b1 w) (b2 w))
  | 0x26 => .command (.mix6 (b0 w) (b1 w) (b2 w))
  | 0x27 => .command (.mix7 (b0 w) (b1 w) (b2 w))
  | _ => .illegal .unassignedOpcode

/-! ### The encoder -/

/-- A word from its opcode and operand bytes, `OPC` in the most significant byte (R72). -/
def pack (o c b a : Byte) : Word := o ++ c ++ b ++ a

/-- A one-bit field as a byte whose reserved bits are 0. -/
def bitByte (x : Bool) : Byte := (0#7 ++ BitVec.ofBool x : BitVec 8)

/-- A three-bit field as a byte whose reserved bits are 0. -/
def octalByte (x : BitVec 3) : Byte := (0#5 ++ x : BitVec 8)

/-- The word of a command (R73, R75). -/
def encode : Instr → Word
  | .nop => pack 0x00 0 0 0
  | .init => pack 0x01 0 0 0
  | .stat clr => pack 0x02 0 0 (bitByte clr)
  | .gen seed => pack 0x08 0 0 seed
  | .twr idx val => pack 0x09 0 val idx
  | .trd idx => pack 0x0A 0 0 idx
  | .tchk => pack 0x0B 0 0 0
  | .upd1 d0 => pack 0x11 0 0 d0
  | .upd2 d0 d1 => pack 0x12 0 d1 d0
  | .upd3 d0 d1 d2 => pack 0x13 d2 d1 d0
  | .dig => pack 0x18 0 0 0
  | .drd ws => pack 0x19 0 0 (octalByte ws)
  | .ard idx h => pack 0x1A 0 (bitByte h) idx
  | .crd h => pack 0x1B 0 (bitByte h) 0
  | .wrd => pack 0x1C 0 0 0
  | .mix0 a b c => pack 0x20 c b a
  | .mix1 a b c => pack 0x21 c b a
  | .mix2 a b c => pack 0x22 c b a
  | .mix3 a b c => pack 0x23 c b a
  | .mix4 a b c => pack 0x24 c b a
  | .mix5 a b c => pack 0x25 c b a
  | .mix6 a b c => pack 0x26 c b a
  | .mix7 a b c => pack 0x27 c b a

/-! ### The match and mask table of R75 -/

/-- One row of the match and mask table: a word is that command if and only if `(cmd & mask) = match`. -/
structure MatchRow where
  pattern : Word
  mask : Word
deriving DecidableEq, Repr

/-- The word matches the row (R75). -/
def MatchRow.hits (r : MatchRow) (w : Word) : Bool := w &&& r.mask == r.pattern

/-- The row of a command in R75's table. -/
def matchRow : Instr → MatchRow
  | .nop => ⟨0x00000000, 0xFFFFFFFF⟩
  | .init => ⟨0x01000000, 0xFFFFFFFF⟩
  | .stat _ => ⟨0x02000000, 0xFFFFFFFE⟩
  | .gen _ => ⟨0x08000000, 0xFFFFFF00⟩
  | .twr _ _ => ⟨0x09000000, 0xFFFF0000⟩
  | .trd _ => ⟨0x0A000000, 0xFFFFFF00⟩
  | .tchk => ⟨0x0B000000, 0xFFFFFFFF⟩
  | .upd1 _ => ⟨0x11000000, 0xFFFFFF00⟩
  | .upd2 _ _ => ⟨0x12000000, 0xFFFF0000⟩
  | .upd3 _ _ _ => ⟨0x13000000, 0xFF000000⟩
  | .dig => ⟨0x18000000, 0xFFFFFFFF⟩
  | .drd _ => ⟨0x19000000, 0xFFFFFFF8⟩
  | .ard _ _ => ⟨0x1A000000, 0xFFFFFE00⟩
  | .crd _ => ⟨0x1B000000, 0xFFFFFEFF⟩
  | .wrd => ⟨0x1C000000, 0xFFFFFFFF⟩
  | .mix0 _ _ _ => ⟨0x20000000, 0xFF000000⟩
  | .mix1 _ _ _ => ⟨0x21000000, 0xFF000000⟩
  | .mix2 _ _ _ => ⟨0x22000000, 0xFF000000⟩
  | .mix3 _ _ _ => ⟨0x23000000, 0xFF000000⟩
  | .mix4 _ _ _ => ⟨0x24000000, 0xFF000000⟩
  | .mix5 _ _ _ => ⟨0x25000000, 0xFF000000⟩
  | .mix6 _ _ _ => ⟨0x26000000, 0xFF000000⟩
  | .mix7 _ _ _ => ⟨0x27000000, 0xFF000000⟩

/-- The 23 rows of R75's table, in its order; operands play no part in a row. -/
def matchTable : List MatchRow :=
  ([.nop, .init, .stat false, .gen 0, .twr 0 0, .trd 0, .tchk, .upd1 0, .upd2 0 0, .upd3 0 0 0, .dig, .drd 0, .ard 0 false,
    .crd false, .wrd, .mix0 0 0 0, .mix1 0 0 0, .mix2 0 0 0, .mix3 0 0 0, .mix4 0 0 0, .mix5 0 0 0, .mix6 0 0 0,
    .mix7 0 0 0] : List Instr).map matchRow

/-! ### The host's reading of a table word -/

/-- The command this decoder reads from a word given as a number of `nbits` bits. Every command is one 32-bit word (R70),
so the bits need no byte order: the number is the word. -/
def decodeTableWord (nbits w : Nat) : Option Instr :=
  match decode (BitVec.ofNat 32 (w % 2 ^ nbits)) with
  | .command i => some i
  | .illegal _ => none

end Sys2Proof
end

