-- ==== Sys2Proof/Config.lean ====
section
/-! DEFINITION. What is fixed for this hardware (spec/00_scope.md R6): the count limit, the default seed and the default
table. The sizes 256 (`NBUCKET`), 4 (`NWIN`), 8 (`NSLOT`), 32 (`DIGEST_BYTES`) and the widths stand in the types of
`Machine.State` and `Instr`. The free values (`LAT`, `RST_LAT`, the undriven response lines) take the state as an argument
and so stand, under the name `Config`, in Machine/Clock.lean. -/

namespace Sys2Proof.Config

/-- `COUNT_MAX` = 2^61 − 1, the largest byte count the core accepts (R6). -/
def countMax : Nat := 2 ^ 61 - 1

/-- `DEFAULT_SEED` = 53, the seed of the table that reset loads (R6). -/
def defaultSeed : Byte := 53

/-- Rows r0 to r3 of the listing of spec/40_table.md R107. -/
def defaultRows0 : List Byte := [
  0x02, 0xd6, 0x9e, 0x6f, 0xf9, 0x1d, 0x04, 0xab, 0xd0, 0x22, 0x16, 0x1f, 0xd8, 0x73, 0xa1, 0xac,
  0x3b, 0x70, 0x62, 0x96, 0x1e, 0x6e, 0x8f, 0x39, 0x9d, 0x05, 0x14, 0x4a, 0xa6, 0xbe, 0xae, 0x0e,
  0xcf, 0xb9, 0x9c, 0x9a, 0xc7, 0x68, 0x13, 0xe1, 0x2d, 0xa4, 0xeb, 0x51, 0x8d, 0x64, 0x6b, 0x50,
  0x23, 0x80, 0x03, 0x41, 0xec, 0xbb, 0x71, 0xcc, 0x7a, 0x86, 0x7f, 0x98, 0xf2, 0x36, 0x5e, 0xee]

/-- Rows r4 to r7 of R107. -/
def defaultRows1 : List Byte := [
  0x8e, 0xce, 0x4f, 0xb8, 0x32, 0xb6, 0x5f, 0x59, 0xdc, 0x1b, 0x31, 0x4c, 0x7b, 0xf0, 0x63, 0x01,
  0x6c, 0xba, 0x07, 0xe8, 0x12, 0x77, 0x49, 0x3c, 0xda, 0x46, 0xfe, 0x2f, 0x79, 0x1c, 0x9b, 0x30,
  0xe3, 0x00, 0x06, 0x7e, 0x2e, 0x0f, 0x38, 0x33, 0x21, 0xad, 0xa5, 0x54, 0xca, 0xa7, 0x29, 0xfc,
  0x5a, 0x47, 0x69, 0x7d, 0xc5, 0x95, 0xb5, 0xf4, 0x0b, 0x90, 0xa3, 0x81, 0x6d, 0x25, 0x55, 0x35]

/-- Rows r8 to r11 of R107. -/
def defaultRows2 : List Byte := [
  0xf5, 0x75, 0x74, 0x0a, 0x26, 0xbf, 0x19, 0x5c, 0x1a, 0xc6, 0xff, 0x99, 0x5d, 0x84, 0xaa, 0x66,
  0x3e, 0xaf, 0x78, 0xb3, 0x20, 0x43, 0xc1, 0xed, 0x24, 0xea, 0xe6, 0x3f, 0x18, 0xf3, 0xa0, 0x42,
  0x57, 0x08, 0x53, 0x60, 0xc3, 0xc0, 0x83, 0x40, 0x82, 0xd7, 0x09, 0xbd, 0x44, 0x2a, 0x67, 0xa8,
  0x93, 0xe0, 0xc2, 0x56, 0x9f, 0xd9, 0xdd, 0x85, 0x15, 0xb4, 0x8a, 0x27, 0x28, 0x92, 0x76, 0xde]

/-- Rows r12 to r15 of R107. -/
def defaultRows3 : List Byte := [
  0xef, 0xf8, 0xb2, 0xb7, 0xc9, 0x3d, 0x45, 0x94, 0x4b, 0x11, 0x0d, 0x65, 0xd5, 0x34, 0x8b, 0x91,
  0x0c, 0xfa, 0x87, 0xe9, 0x7c, 0x5b, 0xb1, 0x4d, 0xe5, 0xd4, 0xcb, 0x10, 0xa2, 0x17, 0x89, 0xbc,
  0xdb, 0xb0, 0xe2, 0x97, 0x88, 0x52, 0xf7, 0x48, 0xd3, 0x61, 0x2c, 0x3a, 0x2b, 0xd1, 0x8c, 0xfb,
  0xf1, 0xcd, 0xe4, 0x6a, 0xe7, 0xa9, 0xfd, 0xc4, 0x37, 0xc8, 0xd2, 0xf6, 0xdf, 0x58, 0x72, 0x4e]

/-- Each of the four pieces of the listing holds 64 entries. -/
theorem defaultRows_length : defaultRows0.length = 64 ∧ defaultRows1.length = 64 ∧ defaultRows2.length = 64 ∧
    defaultRows3.length = 64 := ⟨rfl, rfl, rfl, rfl⟩

/-- The default table `gen(53)` as spec/40_table.md R107 lists it: "A model may hold the table as a constant, or compute it
through rule R100. The two agree." That they agree is an obligation. -/
def defaultTable : Vector Byte 256 :=
  ⟨(defaultRows0 ++ (defaultRows1 ++ (defaultRows2 ++ defaultRows3))).toArray,
    by simp only [List.size_toArray, List.length_append, defaultRows_length, Nat.reduceAdd]⟩

end Sys2Proof.Config
end

