-- ==== Sys2Proof/Machine/State.lean ====
section
/-! DEFINITION. The state of the core (spec/10_state.md R20 to R31), plain data, with what the host does next and what it has
received, and the state right after reset (spec/70_reset_and_hazards.md R251). -/

namespace Sys2Proof.Machine

/-- The status of a response, two bits (spec/30_encoding.md R71). -/
inductive Status where
  /-- 0b00: the command executed. -/
  | ok
  /-- 0b01: the word is not a legal command. -/
  | illegal
  /-- 0b10: an UPDn was refused at the count limit. -/
  | overflow
  /-- 0b11: reserved; "the core never produces it" (R71, D32). -/
  | reserved
deriving DecidableEq, Repr, Inhabited

/-- A response: its status and its 32-bit data (R71). -/
structure Response where
  status : Status
  data : Word
deriving DecidableEq, Repr, Inhabited

/-- One slot of the sliding window: a value and a valid bit, which is 0 for "unset" (R24, D7). -/
structure WinSlot where
  val : Byte
  vld : Bool
deriving DecidableEq, Repr, Inhabited

/-- Where the command channel stands (R31). `Busy` carries the command word that transferred (R254) and `RspPending` the
response the core holds (R256), so that neither exists in another phase (log 2). -/
inductive Phase where
  | resetInit
  | idle
  | busy (cmd : Word)
  | rspPending (rsp : Response)
deriving DecidableEq, Repr, Inhabited

/-- The host's violations of the protocol (spec/70_reset_and_hazards.md R260). -/
inductive Violation where
  /-- `cmd_data` changed, or `cmd_valid` dropped, before the transfer (against R254). -/
  | commandUnstable
  /-- `rst` changed other than synchronously to `clk` (against R251). -/
  | resetAsynchronous
deriving DecidableEq, Repr

/-- One act of the host at the command level (R264). -/
inductive HostEvent where
  /-- The host offers a command word, holds it until the transfer and takes the response. -/
  | cmd (word : Word)
  /-- The host asserts `rst` at a rising edge. -/
  | rst
  /-- The host breaks the protocol. -/
  | violation (v : Violation)
deriving DecidableEq, Repr

/-- The architectural state (R20) and the host's side of it. -/
structure State where
  /-- `TRAN[0..255]` (R21). -/
  tran : Vector Byte 256
  /-- `CNT` (R22). -/
  cnt : Count
  /-- `ACC[0..255]` (R23). -/
  acc : Vector Count 256
  /-- `WIN[0..3]`, slot 0 the most recent prior byte (R24). -/
  win : Vector WinSlot 4
  /-- `DBUF[0..31]` (R26). -/
  dbuf : Vector Byte 32
  /-- `STAT.ILL` (R28). -/
  ill : Bool
  /-- `STAT.OVF` (R29). -/
  ovf : Bool
  /-- `PHASE` (R31). -/
  phase : Phase
  /-- The model's own: what the host does next, oldest first (log 1). -/
  pending : List HostEvent
  /-- The model's own: the responses the host has taken, oldest first (R263, log 1). -/
  taken : List Response
deriving DecidableEq, Repr, Inhabited

/-- Why the machine stops with a fault. -/
inductive Fault where
  /-- Raised by `deliver` when the response presented to the host has the reserved status 0b11: "A model observing it treats
  the core as faulted" (spec/93_implementation_defined.md I6, D32). No command produces it. Safe (log 11). -/
  | reservedStatus
deriving DecidableEq, Repr

/-- Why the machine refuses a step. -/
inductive Refusal where
  /-- Raised by an arm of `exec` for a command that has no meaning yet; no arm does so. Safe. -/
  | notModelled (mnemonic : String)
  /-- Raised by a step whose host breaks the protocol: "A model refuses a run that contains one" (R260). Safe (log 6). -/
  | protocolViolation (v : Violation)
deriving DecidableEq, Repr

/-- An unset window slot: `{val = 0, vld = 0}` (R24). -/
def WinSlot.unset : WinSlot := ⟨0, false⟩

/-- `ACC` with all 256 counters 0 (R23). -/
def accZero : Vector Count 256 := Vector.replicate 256 0

/-- `WIN` with every slot unset (R24). -/
def winUnset : Vector WinSlot 4 := Vector.replicate 4 WinSlot.unset

/-- `DBUF` with all 32 bytes 0 (R26). -/
def dbufZero : Vector Byte 32 := Vector.replicate 32 0

/-- The state right after reset (R251): the default table (R107), everything else of R20 at zero or unset, `PHASE` at
`ResetInit`. The host has done nothing yet and has taken nothing (log 1). -/
def State.reset : State where
  tran := Config.defaultTable
  cnt := 0
  acc := accZero
  win := winUnset
  dbuf := dbufZero
  ill := false
  ovf := false
  phase := .resetInit
  pending := []
  taken := []

end Sys2Proof.Machine
end

