-- ==== Sys2Proof/Machine/Flags.lean ====
section
/-! DEFINITION. The status register and every flag computation the spec gives (spec/10_state.md R27 to R30): the image that
STAT reads, and the setting and clearing of the two sticky bits. -/

namespace Sys2Proof.Machine

/-- `STAT.WV`: bit k reads `WIN[k].vld` (R30). -/
def windowValid (win : Vector WinSlot 4) : BitVec 4 :=
  BitVec.ofBool win[3].vld ++ BitVec.ofBool win[2].vld ++ BitVec.ofBool win[1].vld ++ BitVec.ofBool win[0].vld

/-- The 32-bit image of `STAT`: [7:4] WV, [1] OVF, [0] ILL, every other bit 0 (R27). -/
def statWord (s : State) : Word :=
  0#24 ++ windowValid s.win ++ 0#2 ++ BitVec.ofBool s.ovf ++ BitVec.ofBool s.ill

/-- `STAT.ILL <- 1` (R28). -/
def setIll (s : State) : State := { s with ill := true }

/-- `STAT.ILL <- 0`, which only STAT with `CLR = 1` and reset do (R28). -/
def clearIll (s : State) : State := { s with ill := false }

/-- `STAT.OVF <- 1` (R29). -/
def setOvf (s : State) : State := { s with ovf := true }

end Sys2Proof.Machine
end

