-- ==== Sys2Proof/Machine/Operands.lean ====
section
/-! DEFINITION. Reading an operand's element of an array and assembling response data: array access through index fields
(spec/20_memory.md R50), halves of 64-bit values (R54), zero extension (spec/30_encoding.md R74) and the packing of four
bytes into a response word (R53, spec/44_control.md R204). -/

namespace Sys2Proof.Machine

/-- `ARR[i]` for a 256-entry array and an 8-bit index, which is exactly as wide as the array is deep (R50). -/
def entry {α : Type} (arr : Vector α 256) (i : Byte) : α := arr[i.toNat]'i.isLt

/-- `ARR[i] <- v` for a 256-entry array (R50). -/
def setEntry {α : Type} (arr : Vector α 256) (i : Byte) (v : α) : Vector α 256 := arr.set i.toNat v i.isLt

/-- One 32-bit half of a 64-bit value: bits [63:32] if `h`, else bits [31:0] (R54). -/
def half (h : Bool) (v : Count) : Word := if h then v.extractLsb' 32 32 else v.extractLsb' 0 32

/-- `zext_32` of a byte (R7). -/
def zext (b : Byte) : Word := b.setWidth 32

/-- `{hi, x, y, lo}`: four bytes, the first in bits [31:24] (R7, R53). -/
def fourBytes (hi x y lo : Byte) : Word := hi ++ x ++ y ++ lo

/-- The four bytes of `DBUF` that word select `ws` names, `DBUF[4*ws]` first (R53). -/
def dbufWord (dbuf : Vector Byte 32) (ws : BitVec 3) : Word :=
  have := ws.isLt
  fourBytes (dbuf[4 * ws.toNat]'(by omega)) (dbuf[4 * ws.toNat + 1]'(by omega))
    (dbuf[4 * ws.toNat + 2]'(by omega)) (dbuf[4 * ws.toNat + 3]'(by omega))

/-- The four window values, `WIN[0]` (most recent) in bits [7:0] (R204). -/
def winWord (win : Vector WinSlot 4) : Word := fourBytes win[3].val win[2].val win[1].val win[0].val

end Sys2Proof.Machine
end

