-- ==== Sys2Proof/Machine/Ops.lean ====
section
/-! DEFINITION. The operations the commands share: responding (spec/30_encoding.md R71), the two error responses
(spec/60_exceptions.md R221, R222), the channel's moves (spec/70_reset_and_hazards.md R251 to R256) and the trigram mixer
(spec/41_mixer.md R130).

The core has no trap entry and no trap return (R224, R225): the two error responses ARE its exceptions, one operation each,
and they end with the response like any command. -/

namespace Sys2Proof.Machine

open Host (Outcome)

/-- `respond(st, data)`: the command's effect is complete and its response is presented (R7, R256). -/
def respond (st : Status) (data : Word) (s : State) : State := { s with phase := .rspPending ⟨st, data⟩ }

/-- The outcome of a command that executes: `respond(OK, data)`. -/
def done (data : Word) (s : State) : Outcome State Fault Refusal := .next (respond .ok data s)

/-- `raise Illegal(cmd)`: `STAT.ILL <- 1`, `respond(ILLEGAL, 0)`, nothing else (R221). -/
def raiseIllegal (s : State) : State := respond .illegal 0 (setIll s)

/-- `raise Overflow(cmd)`: `STAT.OVF <- 1`, `respond(OVERFLOW, 0)`, nothing else (R222). -/
def raiseOverflow (s : State) : State := respond .overflow 0 (setOvf s)

/-- The code of a status on `rsp_status[1:0]` (R71). -/
def statusCode : Status → BitVec 2
  | .ok => 0b00
  | .illegal => 0b01
  | .overflow => 0b10
  | .reserved => 0b11

/-! ### The channel (R31) -/

/-- The end of `ResetInit`: the core enters `Idle` (R252). -/
def enterIdle (s : State) : State := { s with phase := .idle }

/-- A command transfers: `PHASE` goes from `Idle` to `Busy` with the word transferred (R254). -/
def accept (w : Word) (s : State) : State := { s with phase := .busy w }

/-- The host takes the response that is presented and `PHASE` returns to `Idle` (R256). A reserved status is a fault
(R71, D32). With no response presented nothing transfers. -/
def deliver (s : State) : Outcome State Fault Refusal :=
  match s.phase with
  | .rspPending r =>
    if r.status = .reserved then .fault .reservedStatus
    else .next { s with phase := .idle, taken := s.taken ++ [r] }
  | _ => .next s

/-- A rising edge with `rst = 1` (R251): any Busy command is aborted and any waiting response discarded, and every element
of R20 takes its reset value. What the host still has to do and what it has already taken are the host's (log 1). -/
def applyReset (s : State) : State := { State.reset with pending := s.pending, taken := s.taken }

/-! ### The mixer -/

/-- The slot number as a byte. -/
def slotByte (n : Fin 8) : Byte := BitVec.ofNat 8 n.val

/-- `mix(a, b, c, n)` with the table `T` (R130); byte arithmetic wraps mod 256 (R8). -/
def mix (T : Vector Byte 256) (a b c : Byte) (n : Fin 8) : Byte :=
  let p := entry T (a + slotByte n)
  let q := entry T b * (2 * slotByte n + 1)
  let r := entry T (c ^^^ entry T (slotByte n))
  (p ^^^ q) + r

end Sys2Proof.Machine
end

