-- ==== Sys2Proof/Machine/Control.lean ====
section
/-! DEFINITION. The control and read-back commands NOP, STAT, CRD, ARD and WRD (spec/44_control.md R200 to R204). -/

namespace Sys2Proof.Machine

open Host (Outcome)

/-- NOP: `respond(OK, 0)` (R200). -/
def execNop (s : State) : Outcome State Fault Refusal := done 0 s

/-- STAT: the image is taken first, and `CLR = 1` then clears `STAT.ILL` (R201). -/
def execStat (clr : Bool) (s : State) : Outcome State Fault Refusal :=
  done (statWord s) (if clr then clearIll s else s)

/-- CRD: one half of `CNT` (R202). -/
def execCrd (h : Bool) (s : State) : Outcome State Fault Refusal := done (half h s.cnt) s

/-- ARD: one half of `ACC[IDX]` (R203). -/
def execArd (idx : Byte) (h : Bool) (s : State) : Outcome State Fault Refusal := done (half h (entry s.acc idx)) s

/-- WRD: the four window values (R204). -/
def execWrd (s : State) : Outcome State Fault Refusal := done (winWord s.win) s

end Sys2Proof.Machine
end

