-- ==== Sys2Proof/Machine/Digest.lean ====
section
/-! DEFINITION. The threshold digest extractor and the commands DIG and DRD (spec/43_digest.md R180 to R188). -/

namespace Sys2Proof.Machine

open Host (Outcome)

/-- `total(c)`, the number of trigram observations for a byte count (R180). -/
def total (c : Nat) : Nat :=
  if c < 3 then 0 else if c = 3 then 1 else if c = 4 then 4 else 8 * c - 28

/-- `threshold = total(CNT) div 256` (R181). -/
def threshold (s : State) : Nat := total s.cnt.toNat / 256

/-- `bit(i)`: the bucket is strictly above the threshold, both sides unsigned (R182). -/
def bucketBit (s : State) (i : Nat) : Bool := (entry s.acc (BitVec.ofNat 8 i)).toNat > threshold s

/-- `P[m]`, the sum over b in 0..7 of `bit(8m + b) · 2^b` (R183). -/
def packedByte (s : State) (m : Nat) : Byte :=
  BitVec.ofNat 8 (((List.range 8).map fun b => (bucketBit s (8 * m + b)).toNat * 2 ^ b).sum)

/-- The digest, `P` reversed end to end: `digest[m] = P[31 − m]` (R184). -/
def digest (s : State) : Vector Byte 32 := Vector.ofFn fun m => packedByte s (31 - m.val)

/-- DIG: `DBUF` takes the digest of the current hash state, and the data is the threshold's low 32 bits (R187). -/
def execDig (s : State) : Outcome State Fault Refusal :=
  done (BitVec.ofNat 32 (threshold s)) { s with dbuf := digest s }

/-- DRD: four bytes of the snapshot `DBUF`, not of the live hash state (R188). -/
def execDrd (ws : BitVec 3) (s : State) : Outcome State Fault Refusal := done (dbufWord s.dbuf ws) s

end Sys2Proof.Machine
end

