-- ==== Sys2Proof/Machine/Mixer.lean ====
section
/-! DEFINITION. The commands MIX0 to MIX7: `respond(OK, zext_32(mix(A, B, C, n)))` with `T = TRAN`; no flag, no state, no
error (spec/41_mixer.md R132 to R139). -/

namespace Sys2Proof.Machine

open Host (Outcome)

/-- What the MIXn commands share: `n` is the low three bits of the opcode (spec/30_encoding.md R74). -/
def mixDone (n : Fin 8) (a b c : Byte) (s : State) : Outcome State Fault Refusal := done (zext (mix s.tran a b c n)) s

/-- MIX0: multiplier 1 (R132). -/
def execMix0 (a b c : Byte) (s : State) : Outcome State Fault Refusal := mixDone 0 a b c s

/-- MIX1: multiplier 3 (R133). -/
def execMix1 (a b c : Byte) (s : State) : Outcome State Fault Refusal := mixDone 1 a b c s

/-- MIX2: multiplier 5 (R134). -/
def execMix2 (a b c : Byte) (s : State) : Outcome State Fault Refusal := mixDone 2 a b c s

/-- MIX3: multiplier 7 (R135). -/
def execMix3 (a b c : Byte) (s : State) : Outcome State Fault Refusal := mixDone 3 a b c s

/-- MIX4: multiplier 9 (R136). -/
def execMix4 (a b c : Byte) (s : State) : Outcome State Fault Refusal := mixDone 4 a b c s

/-- MIX5: multiplier 11 (R137). -/
def execMix5 (a b c : Byte) (s : State) : Outcome State Fault Refusal := mixDone 5 a b c s

/-- MIX6: multiplier 13 (R138). -/
def execMix6 (a b c : Byte) (s : State) : Outcome State Fault Refusal := mixDone 6 a b c s

/-- MIX7: multiplier 15 (R139). -/
def execMix7 (a b c : Byte) (s : State) : Outcome State Fault Refusal := mixDone 7 a b c s

end Sys2Proof.Machine
end

