-- ==== Sys2Proof/Machine/Stream.lean ====
section
/-! DEFINITION. The streaming hash-state engine and the commands INIT, UPD1, UPD2 and UPD3 (spec/42_stream.md R150 to
R157). -/

namespace Sys2Proof.Machine

open Host (Outcome)

/-! ### The eight trigram forms (R151) -/

/-- The window slot whose valid bit gates trigram slot `n`. -/
def gateSlot : Fin 8 → Fin 4
  | 0 => 1
  | 1 | 2 => 2
  | 3 | 4 | 5 | 6 | 7 => 3

/-- `gate_n(w)`: the trigram is performed only if its window slot is set. -/
def gate (w : Vector WinSlot 4) (n : Fin 8) : Bool := w[gateSlot n].vld

/-- `args_n(ch, w)`: the arguments a, b, c of `mix` for slot `n`. -/
def trigram (ch : Byte) (w : Vector WinSlot 4) : Fin 8 → Byte × Byte × Byte
  | 0 => (ch, w[0].val, w[1].val)
  | 1 => (ch, w[0].val, w[2].val)
  | 2 => (ch, w[1].val, w[2].val)
  | 3 => (ch, w[0].val, w[3].val)
  | 4 => (ch, w[1].val, w[3].val)
  | 5 => (ch, w[2].val, w[3].val)
  | 6 => (w[3].val, w[0].val, ch)
  | 7 => (w[3].val, w[2].val, ch)

/-- The bucket that slot `n` selects for the byte `ch`. -/
def bucketOf (T : Vector Byte 256) (ch : Byte) (w : Vector WinSlot 4) (n : Fin 8) : Byte :=
  mix T (trigram ch w n).1 (trigram ch w n).2.1 (trigram ch w n).2.2 n

/-! ### Absorbing one byte (R150) -/

/-- `ACC[b] <- ACC[b] + 1`. -/
def bump (acc : Vector Count 256) (b : Byte) : Vector Count 256 := setEntry acc b (entry acc b + 1)

/-- Step 3 for one slot. -/
def trigramStep (T : Vector Byte 256) (ch : Byte) (w : Vector WinSlot 4) (acc : Vector Count 256) (n : Fin 8) :
    Vector Count 256 :=
  if gate w n then bump acc (bucketOf T ch w n) else acc

/-- The trigram slots in order. -/
def slots : List (Fin 8) := [0, 1, 2, 3, 4, 5, 6, 7]

/-- Step 4: the window slides, and the byte becomes `WIN[0]`. -/
def slide (w : Vector WinSlot 4) (ch : Byte) : Vector WinSlot 4 := #v[⟨ch, true⟩, w[0], w[1], w[2]]

/-- `absorb(ch)`: count, up to eight trigrams read from the window before the byte, slide (R150). The registers are 64 bits wide
(log 7). -/
def absorb (s : State) (ch : Byte) : State :=
  { s with
    cnt := s.cnt + 1
    acc := slots.foldl (trigramStep s.tran ch s.win) s.acc
    win := slide s.win ch }

/-- The bytes absorbed in order. -/
def absorbAll (s : State) (bytes : List Byte) : State := bytes.foldl absorb s

/-- What UPD1, UPD2 and UPD3 share: one check of the count limit before the first byte, then every byte, then the low 32
bits of the new count (R153, R155 to R157). -/
def update (bytes : List Byte) (s : State) : Outcome State Fault Refusal :=
  if s.cnt.toNat + bytes.length > Config.countMax then .next (raiseOverflow s)
  else done (half false (absorbAll s bytes).cnt) (absorbAll s bytes)

/-! ### The commands -/

/-- INIT: a fresh hash state, `DBUF` and `STAT.OVF` cleared; `TRAN` and `STAT.ILL` kept (R154). -/
def execInit (s : State) : Outcome State Fault Refusal :=
  done 0 { s with
    cnt := 0
    acc := accZero
    win := winUnset
    dbuf := dbufZero
    ovf := false }

/-- UPD1: absorb `D0` (R155). -/
def execUpd1 (d0 : Byte) (s : State) : Outcome State Fault Refusal := update [d0] s

/-- UPD2: absorb `D0` then `D1` (R156). -/
def execUpd2 (d0 d1 : Byte) (s : State) : Outcome State Fault Refusal := update [d0, d1] s

/-- UPD3: absorb `D0`, then `D1`, then `D2` (R157). -/
def execUpd3 (d0 d1 d2 : Byte) (s : State) : Outcome State Fault Refusal := update [d0, d1, d2] s

end Sys2Proof.Machine
end

