-- ==== Sys2Proof/Machine/Table.lean ====
section
/-! DEFINITION. The transition-table generator and the commands GEN, TWR, TRD and TCHK (spec/40_table.md R100 to R106). -/

namespace Sys2Proof.Machine

open Host (Outcome)

/-! ### The generation function -/

/-- "then double it (`j = j + j`), and if the result exceeds 255, subtract 255" (R100). -/
def doubleFold (j : Nat) : Nat := if j + j > 255 then j + j - 255 else j + j

/-- One pass of the collision scan over the placed slots, from slot 0 up: whether it meets `j` (R100). -/
def collides (j : Nat) : List Nat → Bool
  | [] => false
  | t :: rest => if j = t then true else collides j rest

/-- The collision scan: on a collision `j` is incremented mod 256 and the scan restarts from slot 0 (R100). `restarts`
bounds the restarts; 256 are enough while fewer than 256 slots are placed, because the values tried differ (log 13). -/
def scan (placed : List Nat) : Nat → Nat → Nat
  | 0, j => j
  | restarts + 1, j => if collides j placed then scan placed restarts ((j + 1) % 256) else j

/-- The value slot i takes, from the running `j` and the slots 0..i-1 already placed (R100). -/
def nextValue (seed j : Nat) (placed : List Nat) : Nat :=
  scan placed 256 (doubleFold ((j * seed + 1) % 256))

/-- Fill `n` more slots; the `j` placed in one slot is the `j` the next slot starts from (R100). -/
def fill (seed : Nat) : Nat → Nat → List Nat → List Nat
  | 0, _, placed => placed
  | n + 1, j, placed => fill seed n (nextValue seed j placed) (placed ++ [nextValue seed j placed])

theorem fill_length (seed n j : Nat) (placed : List Nat) : (fill seed n j placed).length = placed.length + n := by
  induction n generalizing j placed with
  | zero => rfl
  | succ n ih => simp [fill, ih]; omega

/-- The 256 values of `gen(seed)`, slot 0 first. Irreducible, so that no unification runs the loop; the kernel evaluates it. -/
@[irreducible] def genValues (seed : Byte) : List Nat := fill seed.toNat 256 0 []

theorem genValues_length (seed : Byte) : (genValues seed).length = 256 := by
  have h := fill_length seed.toNat 256 0 []
  unfold genValues
  rw [h, List.length_nil, Nat.zero_add]

/-- `gen(seed)` (R100). -/
def gen (seed : Byte) : Vector Byte 256 :=
  ⟨((genValues seed).map (BitVec.ofNat 8)).toArray, by simp [genValues_length]⟩

/-! ### The used-vector reading (R101) -/

/-- The double-and-fold step as a rotate-left of eight bits (R101(a)). -/
def rotl8 (j : Nat) : Nat := ((j <<< 1) ||| (j >>> 7)) % 256

/-- The first value of `j, j+1, … (mod 256)` whose bit in `used` is 0 (R101(b)). -/
def firstFree (used : Nat) : Nat → Nat → Nat
  | 0, j => j
  | tries + 1, j => if used.testBit j then firstFree used tries ((j + 1) % 256) else j

/-- Fill `n` slots with a 256-bit `used` vector in place of the rescans. -/
def fillUsed (seed : Nat) : Nat → Nat → Nat → List Nat
  | 0, _, _ => []
  | n + 1, j, used =>
    let v := firstFree used 256 (rotl8 ((j * seed + 1) % 256))
    v :: fillUsed seed n v (used ||| 1 <<< v)

/-- The table values in the used-vector reading, which R101 and D33 allow in place of R100's loop. -/
def genUsedValues (seed : Byte) : List Nat := fillUsed seed.toNat 256 0 0

/-! ### The table self-check -/

/-- `TRAN[0] ^ TRAN[1] ^ … ^ TRAN[255]` (R106). -/
def tableXor (T : Vector Byte 256) : Byte := T.toList.foldl (· ^^^ ·) 0

/-- No value of the list occurs again later in it. -/
def distinct : List Byte → Bool
  | [] => true
  | x :: rest => rest.all (x != ·) && distinct rest

/-- PERM: `TRAN[i] ≠ TRAN[k]` for all `i < k` (R106). -/
def tablePerm (T : Vector Byte 256) : Bool := distinct T.toList

/-- `zext_32({p, x})`: data[8] is PERM and data[7:0] the XOR (R106). -/
def checkWord (T : Vector Byte 256) : Word := (BitVec.ofBool (tablePerm T) ++ tableXor T).setWidth 32

/-! ### The commands -/

/-- GEN: `TRAN <- gen(SEED)` (R103). -/
def execGen (seed : Byte) (s : State) : Outcome State Fault Refusal := done 0 { s with tran := gen seed }

/-- TWR: `TRAN[IDX] <- VAL`, with no check that the table stays a permutation (R104). -/
def execTwr (idx val : Byte) (s : State) : Outcome State Fault Refusal :=
  done 0 { s with tran := setEntry s.tran idx val }

/-- TRD: `respond(OK, zext_32(TRAN[IDX]))` (R105). -/
def execTrd (idx : Byte) (s : State) : Outcome State Fault Refusal := done (zext (entry s.tran idx)) s

/-- TCHK: the XOR of the table and whether it is a permutation (R106). -/
def execTchk (s : State) : Outcome State Fault Refusal := done (checkWord s.tran) s

end Sys2Proof.Machine
end

