-- ==== Sys2Proof/Machine/Dispatch.lean ====
section
/-! DEFINITION. The meaning of each command: one arm per constructor of Instr, in the order of spec/opcode_table.json. -/

namespace Sys2Proof.Machine

def exec (i : Instr) (s : State) : Host.Outcome State Fault Refusal :=
  match i with
  | .nop => Sys2Proof.Machine.execNop s
  | .init => Sys2Proof.Machine.execInit s
  | .stat clr => Sys2Proof.Machine.execStat clr s
  | .gen seed => Sys2Proof.Machine.execGen seed s
  | .twr idx val => Sys2Proof.Machine.execTwr idx val s
  | .trd idx => Sys2Proof.Machine.execTrd idx s
  | .tchk => Sys2Proof.Machine.execTchk s
  | .upd1 d0 => Sys2Proof.Machine.execUpd1 d0 s
  | .upd2 d0 d1 => Sys2Proof.Machine.execUpd2 d0 d1 s
  | .upd3 d0 d1 d2 => Sys2Proof.Machine.execUpd3 d0 d1 d2 s
  | .dig => Sys2Proof.Machine.execDig s
  | .drd ws => Sys2Proof.Machine.execDrd ws s
  | .ard idx h => Sys2Proof.Machine.execArd idx h s
  | .crd h => Sys2Proof.Machine.execCrd h s
  | .wrd => Sys2Proof.Machine.execWrd s
  | .mix0 a b c => Sys2Proof.Machine.execMix0 a b c s
  | .mix1 a b c => Sys2Proof.Machine.execMix1 a b c s
  | .mix2 a b c => Sys2Proof.Machine.execMix2 a b c s
  | .mix3 a b c => Sys2Proof.Machine.execMix3 a b c s
  | .mix4 a b c => Sys2Proof.Machine.execMix4 a b c s
  | .mix5 a b c => Sys2Proof.Machine.execMix5 a b c s
  | .mix6 a b c => Sys2Proof.Machine.execMix6 a b c s
  | .mix7 a b c => Sys2Proof.Machine.execMix7 a b c s

end Sys2Proof.Machine
end

