-- ==== Sys2Proof/Machine/Channel.lean ====
section
/-! DEFINITION. Running one command word through the channel (spec/10_state.md R31, spec/20_memory.md R60 to R66,
spec/60_exceptions.md R221, R223): decode, execute or raise Illegal, hand the response to the host; and one step of the
machine at the command level (spec/00_scope.md R4). -/

namespace Sys2Proof.Machine

open Host (Outcome)

/-- The effect of the word: it is decoded first, and a word that is not a command raises Illegal (R76, R221, R223). -/
def execWord (w : Word) (s : State) : Outcome State Fault Refusal :=
  match decode w with
  | .command i => exec i s
  | .illegal _ => .next (raiseIllegal s)

/-- From `Busy` to the end of the transaction: the effect, then the host takes the response. -/
def finish (w : Word) (s : State) : Outcome State Fault Refusal :=
  match execWord w s with
  | .next t => deliver t
  | .fault r => .fault r
  | .refused r => .refused r

/-- The whole transaction Idle → Busy → RspPending → Idle, which is one step at the command level (R4, R31). -/
def transact (w : Word) (s : State) : Outcome State Fault Refusal := finish w (accept w s)

/-- What the core does on its own account in each phase when the host neither resets it nor breaks the protocol: it leaves
`ResetInit` after a finite time (R252), completes a Busy command, hands over a waiting response, and in `Idle` waits and
holds all its state (R232). -/
def proceed (s : State) : Outcome State Fault Refusal :=
  match s.phase with
  | .resetInit => .next (enterIdle s)
  | .idle => .next s
  | .busy w => finish w s
  | .rspPending _ => deliver s

/-- One step (R4): a reset takes effect in any phase (R251), a protocol violation ends the run without an outcome (R260), a
command is accepted only in `Idle` (R255), and otherwise the core proceeds. What one step takes together is log 10. -/
def advance (s : State) : Outcome State Fault Refusal :=
  match s.pending with
  | .rst :: rest => .next (applyReset { s with pending := rest })
  | .violation v :: _ => .refused (.protocolViolation v)
  | .cmd w :: rest => if s.phase = .idle then transact w { s with pending := rest } else proceed s
  | [] => proceed s

/-- The host offers `w` next and the core stands in `Idle`, so that the next step accepts and runs it (log 3). -/
def offerNext (w : Word) (s : State) : State := { s with phase := .idle, pending := .cmd w :: s.pending }

end Sys2Proof.Machine
end

