-- ==== Sys2Proof/Machine/Step.lean ====
section
/-! DEFINITION. One step of the machine at the command level (spec/00_scope.md R4), and the host's way to have a word run
next. The core fetches nothing (spec/10_state.md R40): the word comes from the host through the command channel (R254). -/

namespace Sys2Proof.Machine

/-- One step: see `advance`. -/
def step (s : State) : Host.Outcome State Fault Refusal := advance s

/-- The word `w` of `nbits` bits is what the host offers next, with the core in `Idle`. -/
def State.withFetchWord (s : State) (nbits w : Nat) : State := offerNext (BitVec.ofNat 32 (w % 2 ^ nbits)) s

end Sys2Proof.Machine
end

