-- ==== Sys2Proof/WellFormed.lean ====
section
/-! DEFINITION. Assembly lines as they are written, with operands that are plain numbers, and the check that every operand
fits its field (spec/30_encoding.md R80: "Each operand must fit its field, or assembly fails"). A decoded command (`Instr`)
needs no such check: its operands have the fields' exact types. -/

namespace Sys2Proof

/-- One line of assembly: a command of R80 or a pseudo-instruction of R81. Operands are unsigned integers, not yet known to
fit; a character or a string has already been turned into its ASCII codes. -/
inductive AsmLine where
  | nop
  | init
  | tchk
  | dig
  | wrd
  /-- `STAT` (none) or `STAT clr`; `STAT` alone means `STAT 0`. -/
  | stat (clr : Option Nat)
  | gen (seed : Nat)
  | twr (idx val : Nat)
  | trd (idx : Nat)
  | upd1 (d0 : Nat)
  | upd2 (d0 d1 : Nat)
  | upd3 (d0 d1 d2 : Nat)
  | drd (w : Nat)
  | ard (idx h : Nat)
  | crd (h : Nat)
  /-- `MIXn a, b, c`. -/
  | mix (n a b c : Nat)
  /-- `UPD "text"` or `UPD d0, …, dk-1`, k ≥ 1 (R81). -/
  | upd (bytes : List Nat)
  /-- `NEWHASH` (none) or `NEWHASH seed` (R81). -/
  | newhash (seed : Option Nat)
  /-- `LOADTAB t0, …, t255` (R81). -/
  | loadtab (entries : List Nat)
  | digest
  | rdcnt
  | rdacc (idx : Nat)
  | clrerr
deriving DecidableEq, Repr

/-- The operand fits a byte field (R74). -/
def fitsByte (n : Nat) : Bool := n < 256

/-- The operand fits the one-bit field `H` or `CLR` (R74). -/
def fitsBit (n : Nat) : Bool := n < 2

/-- The operand fits a three-bit field: the word select `WS`, or the slot n of a MIXn mnemonic (R74). -/
def fitsOctal (n : Nat) : Bool := n < 8

/-- Every operand of the line fits its field, and a list operand has a length its rule allows (R80, R81). -/
def AsmLine.wellFormed : AsmLine → Bool
  | .nop | .init | .tchk | .dig | .wrd => true
  | .stat none => true
  | .stat (some clr) => fitsBit clr
  | .gen seed => fitsByte seed
  | .twr idx val => fitsByte idx && fitsByte val
  | .trd idx => fitsByte idx
  | .upd1 d0 => fitsByte d0
  | .upd2 d0 d1 => fitsByte d0 && fitsByte d1
  | .upd3 d0 d1 d2 => fitsByte d0 && fitsByte d1 && fitsByte d2
  | .drd w => fitsOctal w
  | .ard idx h => fitsByte idx && fitsBit h
  | .crd h => fitsBit h
  | .mix n a b c => fitsOctal n && fitsByte a && fitsByte b && fitsByte c
  | .upd bytes => !bytes.isEmpty && bytes.all fitsByte
  | .newhash none => true
  | .newhash (some seed) => fitsByte seed
  | .loadtab entries => entries.length == 256 && entries.all fitsByte
  | .digest | .rdcnt | .clrerr => true
  | .rdacc idx => fitsByte idx

end Sys2Proof
end

