-- ==== Sys2Proof/Machine/Assembler.lean ====
section
/-! DEFINITION. The assembly language (spec/30_encoding.md R80, R81): reading a line of text, expanding the
pseudo-instructions, and assembling to command words. A text is a list of characters (log 12). -/

namespace Sys2Proof.Machine

/-! ### From assembly lines to commands -/

/-- The commands that carry the bytes in order: ⌊k/3⌋ times UPD3, then UPD1 or UPD2 for the rest (R81). -/
def packUpdates : List Nat → List Instr
  | [] => []
  | [d0] => [.upd1 (BitVec.ofNat 8 d0)]
  | [d0, d1] => [.upd2 (BitVec.ofNat 8 d0) (BitVec.ofNat 8 d1)]
  | d0 :: d1 :: d2 :: rest =>
    .upd3 (BitVec.ofNat 8 d0) (BitVec.ofNat 8 d1) (BitVec.ofNat 8 d2) :: packUpdates rest

/-- The TWR commands of LOADTAB, from entry `idx` on (R81). -/
def loadEntries : Nat → List Nat → List Instr
  | _, [] => []
  | idx, t :: rest => .twr (BitVec.ofNat 8 idx) (BitVec.ofNat 8 t) :: loadEntries (idx + 1) rest

/-- The command `MIXn a, b, c`. -/
def mixInstr (n : Nat) (a b c : Byte) : Instr :=
  match n with
  | 0 => .mix0 a b c
  | 1 => .mix1 a b c
  | 2 => .mix2 a b c
  | 3 => .mix3 a b c
  | 4 => .mix4 a b c
  | 5 => .mix5 a b c
  | 6 => .mix6 a b c
  | _ => .mix7 a b c

/-- The commands a well-formed line stands for: itself (R80), or its expansion (R81). -/
def expand : AsmLine → List Instr
  | .nop => [.nop]
  | .init => [.init]
  | .tchk => [.tchk]
  | .dig => [.dig]
  | .wrd => [.wrd]
  | .stat none => [.stat false]
  | .stat (some clr) => [.stat (clr == 1)]
  | .gen seed => [.gen (BitVec.ofNat 8 seed)]
  | .twr idx val => [.twr (BitVec.ofNat 8 idx) (BitVec.ofNat 8 val)]
  | .trd idx => [.trd (BitVec.ofNat 8 idx)]
  | .upd1 d0 => [.upd1 (BitVec.ofNat 8 d0)]
  | .upd2 d0 d1 => [.upd2 (BitVec.ofNat 8 d0) (BitVec.ofNat 8 d1)]
  | .upd3 d0 d1 d2 => [.upd3 (BitVec.ofNat 8 d0) (BitVec.ofNat 8 d1) (BitVec.ofNat 8 d2)]
  | .drd w => [.drd (BitVec.ofNat 3 w)]
  | .ard idx h => [.ard (BitVec.ofNat 8 idx) (h == 1)]
  | .crd h => [.crd (h == 1)]
  | .mix n a b c => [mixInstr n (BitVec.ofNat 8 a) (BitVec.ofNat 8 b) (BitVec.ofNat 8 c)]
  | .upd bytes => packUpdates bytes
  | .newhash none => [.init]
  | .newhash (some seed) => [.gen (BitVec.ofNat 8 seed), .init]
  | .loadtab entries => loadEntries 0 entries ++ [.init]
  | .digest => [.dig, .drd 0, .drd 1, .drd 2, .drd 3, .drd 4, .drd 5, .drd 6, .drd 7]
  | .rdcnt => [.crd false, .crd true]
  | .rdacc idx => [.ard (BitVec.ofNat 8 idx) false, .ard (BitVec.ofNat 8 idx) true]
  | .clrerr => [.stat true]

/-- The commands of a line; assembly fails if an operand does not fit its field (R80). -/
def assemble (line : AsmLine) : Option (List Instr) := if line.wellFormed then some (expand line) else none

/-- The command words of a line. -/
def assembleWords (line : AsmLine) : Option (List Word) := (assemble line).map (·.map encode)

/-! ### Reading the text of a line -/

/-- A token of a line. -/
inductive Token where
  | name (letters : List Char)
  | num (n : Nat)
  | str (codes : List Nat)
  | comma
deriving DecidableEq, Repr

/-- An operand: a number (or a character, which stands for its ASCII code), or a string of ASCII codes (R80, R81). -/
inductive AsmOperand where
  | num (n : Nat)
  | str (codes : List Nat)
deriving DecidableEq, Repr

/-- The value of a decimal digit. -/
def decDigit (c : Char) : Option Nat := if '0' ≤ c ∧ c ≤ '9' then some (c.toNat - '0'.toNat) else none

/-- The value of a hexadecimal digit. -/
def hexDigit (c : Char) : Option Nat :=
  if 'a' ≤ c ∧ c ≤ 'f' then some (c.toNat - 'a'.toNat + 10)
  else if 'A' ≤ c ∧ c ≤ 'F' then some (c.toNat - 'A'.toNat + 10)
  else decDigit c

/-- Read digits in a base as far as they go: the number and the rest of the text. -/
def readDigits (base : Nat) (digit : Char → Option Nat) : Nat → List Char → Nat × List Char
  | value, [] => (value, [])
  | value, c :: rest =>
    match digit c with
    | some d => readDigits base digit (value * base + d) rest
    | none => (value, c :: rest)

/-- A character of a mnemonic: a letter, or a digit after the first letter. -/
def isNameChar (c : Char) : Bool := ('A' ≤ c ∧ c ≤ 'Z') ∨ ('0' ≤ c ∧ c ≤ '9')

/-- The codes of the characters up to the closing quote, all of which must be ASCII. -/
def readString : List Char → Option (List Nat × List Char)
  | [] => none
  | '"' :: rest => some ([], rest)
  | c :: rest =>
    if c.toNat < 128 then (readString rest).map fun (codes, after) => (c.toNat :: codes, after) else none

/-- The tokens of a line; `;` starts a comment (R80). `none` is a malformed line. The first argument bounds the number of
tokens and blanks and is the length of the text. -/
def tokens : Nat → List Char → Option (List Token)
  | _, [] => some []
  | 0, _ => none
  | fuel + 1, c :: rest =>
    if c = ';' then some []
    else if c = ' ' ∨ c = '\t' then tokens fuel rest
    else if c = ',' then (tokens fuel rest).map (.comma :: ·)
    else if c = '"' then
      match readString rest with
      | some (codes, after) => (tokens fuel after).map (.str codes :: ·)
      | none => none
    else if c = '\'' then
      match rest with
      | x :: y :: after => if y = '\'' ∧ x.toNat < 128 then (tokens fuel after).map (.num x.toNat :: ·) else none
      | _ => none
    else if c = '0' ∧ rest.head? = some 'x' then
      match rest.tail with
      | [] => none
      | d :: more =>
        match hexDigit d with
        | some _ =>
          let (n, after) := readDigits 16 hexDigit 0 (d :: more)
          (tokens fuel after).map (.num n :: ·)
        | none => none
    else if (decDigit c).isSome then
      let (n, after) := readDigits 10 decDigit 0 (c :: rest)
      (tokens fuel after).map (.num n :: ·)
    else if 'A' ≤ c ∧ c ≤ 'Z' then
      let word := c :: rest.takeWhile isNameChar
      (tokens fuel (rest.dropWhile isNameChar)).map (.name word :: ·)
    else none

/-- Operands separated by commas. -/
def operands : List Token → Option (List AsmOperand)
  | [] => some []
  | [.num n] => some [.num n]
  | [.str codes] => some [.str codes]
  | .num n :: .comma :: rest =>
    match operands rest with
    | some (x :: xs) => some (.num n :: x :: xs)
    | _ => none
  | _ => none

/-- The operands as numbers, if none is a string. -/
def numbers : List AsmOperand → Option (List Nat)
  | [] => some []
  | .num n :: rest => (numbers rest).map (n :: ·)
  | .str _ :: _ => none

/-- The line of a mnemonic with number operands, in the operand order of R80 and R81. -/
def lineOfNumbers (name : List Char) (ops : List Nat) : Option AsmLine :=
  match ops with
  | [] =>
    if name = ['N', 'O', 'P'] then some .nop
    else if name = ['I', 'N', 'I', 'T'] then some .init
    else if name = ['T', 'C', 'H', 'K'] then some .tchk
    else if name = ['D', 'I', 'G'] then some .dig
    else if name = ['W', 'R', 'D'] then some .wrd
    else if name = ['S', 'T', 'A', 'T'] then some (.stat none)
    else if name = ['N', 'E', 'W', 'H', 'A', 'S', 'H'] then some (.newhash none)
    else if name = ['D', 'I', 'G', 'E', 'S', 'T'] then some .digest
    else if name = ['R', 'D', 'C', 'N', 'T'] then some .rdcnt
    else if name = ['C', 'L', 'R', 'E', 'R', 'R'] then some .clrerr
    else none
  | x :: rest =>
    if name = ['U', 'P', 'D'] then some (.upd (x :: rest))
    else if name = ['L', 'O', 'A', 'D', 'T', 'A', 'B'] then some (.loadtab (x :: rest))
    else match rest with
    | [] =>
      if name = ['S', 'T', 'A', 'T'] then some (.stat (some x))
      else if name = ['G', 'E', 'N'] then some (.gen x)
      else if name = ['T', 'R', 'D'] then some (.trd x)
      else if name = ['U', 'P', 'D', '1'] then some (.upd1 x)
      else if name = ['D', 'R', 'D'] then some (.drd x)
      else if name = ['C', 'R', 'D'] then some (.crd x)
      else if name = ['N', 'E', 'W', 'H', 'A', 'S', 'H'] then some (.newhash (some x))
      else if name = ['R', 'D', 'A', 'C', 'C'] then some (.rdacc x)
      else none
    | [y] =>
      if name = ['T', 'W', 'R'] then some (.twr x y)
      else if name = ['U', 'P', 'D', '2'] then some (.upd2 x y)
      else if name = ['A', 'R', 'D'] then some (.ard x y)
      else none
    | [y, z] =>
      if name = ['U', 'P', 'D', '3'] then some (.upd3 x y z)
      else match name with
      | ['M', 'I', 'X', d] => (decDigit d).bind fun n => if n < 8 then some (.mix n x y z) else none
      | _ => none
    | _ => none

/-- The assembly line of a mnemonic and its operands. Only UPD takes a string (R81). -/
def lineOf (name : List Char) (ops : List AsmOperand) : Option AsmLine :=
  match ops with
  | [.str codes] => if name = ['U', 'P', 'D'] then some (.upd codes) else none
  | _ => (numbers ops).bind (lineOfNumbers name)

/-- Read one line of text: `some none` is a line with no command (blank, or only a comment). -/
def readLine (text : List Char) : Option (Option AsmLine) :=
  match tokens text.length text with
  | some [] => some none
  | some (.name w :: rest) => (operands rest).bind fun ops => (lineOf w ops).map some
  | _ => none

/-- The command words of one line of text. -/
def assembleText (text : List Char) : Option (List Word) :=
  match readLine text with
  | some none => some []
  | some (some line) => assembleWords line
  | none => none

/-- The command words of a program, one command per line (R80); `none` if any line fails. -/
def assembleProgram : List (List Char) → Option (List Word)
  | [] => some []
  | text :: rest => (assembleText text).bind fun words => (assembleProgram rest).map (words ++ ·)

end Sys2Proof.Machine
end

