-- ==== Sys2Proof/Machine/Clock.lean ====
section
/-! DEFINITION. The core at its ports, one rising edge of `clk` at a time (spec/70_reset_and_hazards.md R250 to R256, R260,
R261). The state effect of every command is the command level's, taken whole when the command completes (R64). -/

namespace Sys2Proof.Config

/-- Free value: the cycles of `LAT` beyond its minimum of 1 for a command accepted at an edge (R261, I1). It may depend on
anything: the edge's number, the word and the state. Uninterpreted, so no proof can rest on its value (log 4). -/
opaque lat (cycle : Nat) (cmd : Word) (s : Machine.State) : Nat

/-- Free value: `RST_LAT` after a reset edge (R252, I2). Uninterpreted (log 4). -/
opaque rstLat (cycle : Nat) : Nat

/-- Free value: `rsp_status` and `rsp_data` while `rsp_valid = 0` (R263, I5: any value). Uninterpreted (log 5). -/
opaque undriven (cycle : Nat) (s : Machine.State) : BitVec 2 × Word

end Sys2Proof.Config

namespace Sys2Proof.Machine

open Host (Outcome)

/-- The input ports over one cycle, as sampled at the rising edge that ends it (R250). `rstGlitch` says that `rst` changed
other than synchronously to `clk` (R260). -/
structure PortsIn where
  rst : Bool
  cmdValid : Bool
  cmdData : Word
  rspReady : Bool
  rstGlitch : Bool
deriving DecidableEq, Repr

/-- The output ports over one cycle (R250). -/
structure PortsOut where
  cmdReady : Bool
  rspValid : Bool
  rspStatus : BitVec 2
  rspData : Word
deriving DecidableEq, Repr

/-- The core between two rising edges: its state, and the clock level's own bookkeeping. -/
structure Clocked where
  core : State
  /-- Edges still to pass in `ResetInit` or `Busy` before the phase can end. -/
  left : Nat
  /-- Rising edges so far, the index of the free values. -/
  cycle : Nat
  /-- A command word the host has offered that has not transferred: it must stay offered (R254). -/
  offer : Option Word
deriving DecidableEq, Repr

/-- The core's state as it stands in a cycle with `rst = 0`: once `RST_LAT` cycles have passed in `ResetInit` the core is in
`Idle`, with `RST_LAT = 0` in the very first such cycle (R252). -/
def settled (c : Clocked) : State :=
  if c.core.phase = .resetInit ∧ c.left = 0 then enterIdle c.core else c.core

/-- `cmd_ready = 1` exactly when `PHASE = Idle`, and 0 while `rst = 1` (R251, R255). -/
def cmdReady (c : Clocked) (rst : Bool) : Bool := !rst && decide ((settled c).phase = .idle)

/-- The output ports in a cycle (R250, R251, R255, R256). -/
def outputs (c : Clocked) (rst : Bool) : PortsOut :=
  match rst, c.core.phase with
  | false, .rspPending r =>
    { cmdReady := false, rspValid := true, rspStatus := statusCode r.status, rspData := r.data }
  | _, _ =>
    { cmdReady := cmdReady c rst, rspValid := false, rspStatus := (Config.undriven c.cycle c.core).1,
      rspData := (Config.undriven c.cycle c.core).2 }

/-- The host breaks the protocol at this edge (R260): `rst` changed asynchronously, or a word offered before is no longer
offered unchanged (R254, log 6). -/
def violationAt (c : Clocked) (p : PortsIn) : Option Violation :=
  if p.rstGlitch then some .resetAsynchronous
  else match c.offer with
    | some w => if p.cmdValid ∧ p.cmdData = w then none else some .commandUnstable
    | none => none

/-- What stays offered after an edge where no command transferred. -/
def stillOffered (p : PortsIn) : Option Word := if p.cmdValid then some p.cmdData else none

/-- A rising edge with `rst = 1` (R251). -/
def resetEdge (c : Clocked) (p : PortsIn) : Clocked :=
  { core := applyReset c.core, left := Config.rstLat c.cycle, cycle := c.cycle + 1, offer := stillOffered p }

/-- The clock level's record after an edge at which the core's state became `t`, its own bookkeeping apart from `left` as
after any edge without a transfer. -/
def afterEdge (c : Clocked) (p : PortsIn) (t : State) (left : Nat) : Clocked :=
  { core := t, left := left, cycle := c.cycle + 1, offer := stillOffered p }

/-- A rising edge with `rst = 0` (R252 to R256). -/
def runEdge (c : Clocked) (p : PortsIn) : Outcome Clocked Fault Refusal :=
  match (settled c).phase with
  | .resetInit => .next (afterEdge c p c.core (c.left - 1))
  | .idle =>
    if p.cmdValid then
      .next { core := accept p.cmdData (settled c), left := Config.lat c.cycle p.cmdData (settled c), cycle := c.cycle + 1,
              offer := none }
    else .next (afterEdge c p (settled c) 0)
  | .busy w =>
    if c.left = 0 then
      match execWord w c.core with
      | .next t => .next (afterEdge c p t 0)
      | .fault r => .fault r
      | .refused r => .refused r
    else .next (afterEdge c p c.core (c.left - 1))
  | .rspPending _ =>
    if p.rspReady then
      match deliver c.core with
      | .next t => .next (afterEdge c p t 0)
      | .fault r => .fault r
      | .refused r => .refused r
    else .next (afterEdge c p c.core 0)

/-- One rising edge: a run with a protocol violation is refused (R260); `rst = 1` resets (R251); otherwise the channel
moves. -/
def edge (c : Clocked) (p : PortsIn) : Outcome Clocked Fault Refusal :=
  match violationAt c p with
  | some v => .refused (.protocolViolation v)
  | none => if p.rst then .next (resetEdge c p) else runEdge c p

/-- The edges of a list of port inputs, stopping at the first fault or refusal. -/
def edges (c : Clocked) : List PortsIn → Outcome Clocked Fault Refusal
  | [] => .next c
  | p :: rest =>
    match edge c p with
    | .next c' => edges c' rest
    | .fault r => .fault r
    | .refused r => .refused r

/-- A cycle in which the host offers the word `w`. -/
def offering (w : Word) : PortsIn := { rst := false, cmdValid := true, cmdData := w, rspReady := false, rstGlitch := false }

/-- A cycle in which the host does nothing. -/
def quiet : PortsIn := { rst := false, cmdValid := false, cmdData := 0, rspReady := false, rstGlitch := false }

/-- A cycle in which the host is ready to take a response. -/
def taking : PortsIn := { rst := false, cmdValid := false, cmdData := 0, rspReady := true, rstGlitch := false }

/-- A cycle in which the host asserts `rst`. -/
def resetting : PortsIn := { rst := true, cmdValid := false, cmdData := 0, rspReady := false, rstGlitch := false }

end Sys2Proof.Machine
end

