-- ==== Sys2Proof/Safety.lean ====
section
/-! DEFINITION. What claims about runs are stated in: the invariant of the core (spec/10_state.md R22 to R25,
spec/42_stream.md R158, spec/30_encoding.md R71), the states that a run from reset reaches, and a run's commands. -/

namespace Sys2Proof.Machine

open Host (Outcome)

/-- A response the core may give: never the reserved status, and data 0 unless the status is OK (R71). -/
def Response.legal (r : Response) : Bool := r.status != .reserved && (r.status == .ok || r.data == 0)

/-- A slot agrees with the count: it is valid exactly when more than `k` bytes have been absorbed (R25), and an unset slot
holds 0 (R24). -/
def slotAgrees (s : State) (k : Fin 4) : Bool :=
  (s.win[k].vld == decide (k.val < s.cnt.toNat)) && (s.win[k].vld || s.win[k].val == 0)

/-- The sum of the 256 counters, as an exact integer (R158). -/
def accSum (s : State) : Nat := (s.acc.toList.map BitVec.toNat).sum

/-- A response that is presented is a legal one. -/
def phaseLegal (s : State) : Bool :=
  match s.phase with
  | .rspPending r => r.legal
  | _ => true

/-- The invariant of the core. -/
structure Inv (s : State) : Prop where
  /-- "It never exceeds `COUNT_MAX`" (R22). -/
  count : s.cnt.toNat ≤ Config.countMax
  /-- R24 and R25. -/
  window : ∀ k : Fin 4, slotAgrees s k = true
  /-- `sum(ACC[0..255]) = total(CNT)` (R158). -/
  sum : accSum s = total s.cnt.toNat
  /-- R71. -/
  presented : phaseLegal s = true
  /-- R71. -/
  received : ∀ r ∈ s.taken, r.legal = true

/-- The state after reset with the acts the host will perform (power-up before the first reset is log 8). -/
def startWith (acts : List HostEvent) : State := { State.reset with pending := acts }

/-- The states a run reaches from reset, for whatever the host does. -/
inductive Reachable : State → Prop where
  | start (acts : List HostEvent) : Reachable (startWith acts)
  | step {s t : State} : Reachable s → Machine.step s = .next t → Reachable t

/-- Execute a list of commands one after another, each as the channel runs it: accept, execute, deliver. -/
def runCommands : List Instr → State → Outcome State Fault Refusal
  | [], s => .next s
  | i :: rest, s =>
    match transact (encode i) s with
    | .next t => runCommands rest t
    | .fault r => .fault r
    | .refused r => .refused r

/-- The input bytes a command carries, first byte first (spec/20_memory.md R52). -/
def inputBytes : Instr → List Byte
  | .upd1 d0 => [d0]
  | .upd2 d0 d1 => [d0, d1]
  | .upd3 d0 d1 d2 => [d0, d1, d2]
  | .nop | .init | .stat _ | .gen _ | .twr _ _ | .trd _ | .tchk | .dig | .drd _ | .ard _ _ | .crd _ | .wrd => []
  | .mix0 _ _ _ | .mix1 _ _ _ | .mix2 _ _ _ | .mix3 _ _ _ | .mix4 _ _ _ | .mix5 _ _ _ | .mix6 _ _ _ | .mix7 _ _ _ => []

/-- The commands that neither change `TRAN` nor start a fresh hash state: UPDn and the commands that only read or write
`DBUF` (R159). -/
def keepsStream : Instr → Bool
  | .gen _ | .twr _ _ | .init => false
  | .upd1 _ | .upd2 _ _ | .upd3 _ _ _ | .nop | .stat _ | .trd _ | .tchk | .dig | .drd _ | .ard _ _ | .crd _ | .wrd => true
  | .mix0 _ _ _ | .mix1 _ _ _ | .mix2 _ _ _ | .mix3 _ _ _ | .mix4 _ _ _ | .mix5 _ _ _ | .mix6 _ _ _ | .mix7 _ _ _ => true

end Sys2Proof.Machine
end

