-- ==== Sys2Proof/Certificates/Slice0/Obligations.lean ====
section
/-! DEFINITION. The statements for the provers. Each cites the rule of spec/ it comes from; a next state is written out as a
record update, so that what is not named there is unchanged. -/

namespace Sys2Proof.Spec

open Sys2Proof.Machine

/-- The opcodes that spec/30_encoding.md R77 lists as unassigned. -/
def unassigned (o : Nat) : Bool :=
  (0x03 ≤ o && o ≤ 0x07) || (0x0C ≤ o && o ≤ 0x10) || (0x14 ≤ o && o ≤ 0x17) || (0x1D ≤ o && o ≤ 0x1F) ||
    (0x28 ≤ o && o ≤ 0xFF)

/-- The bits of [23:0] that the format of an opcode reserves, read off the table of R73. -/
def reservedBits (o : Nat) : Word :=
  if o ∈ [0x00, 0x01, 0x0B, 0x18, 0x1C] then 0x00FFFFFF       -- FN
  else if o = 0x02 then 0x00FFFFFE                            -- FS
  else if o ∈ [0x08, 0x0A, 0x11] then 0x00FFFF00              -- F1
  else if o ∈ [0x09, 0x12] then 0x00FF0000                    -- F2
  else if o = 0x19 then 0x00FFFFF8                            -- FW
  else if o = 0x1A then 0x00FFFE00                            -- FH
  else if o = 0x1B then 0x00FFFEFF                            -- FH0
  else 0                                                      -- F3

/-- The collision scan of R100 with its index `k` written out; `fuel` bounds the turns of the loop. -/
def scanLoop (t : List Nat) : Nat → Nat → Nat → Nat
  | 0, j, _ => j
  | fuel + 1, j, k =>
    if k < t.length then
      if j = t.getD k 0 then scanLoop t fuel ((j + 1) % 256) 0 else scanLoop t fuel j (k + 1)
    else j

/-- A table entry at an index that is a plain number, as an exact integer. -/
def tableAt (T : Vector Byte 256) (i : Nat) : Nat := (T.toList.getD i 0).toNat

/-- The eight rows of the table of R151: the gate, and the bucket the row's trigram selects. -/
def trigramRows (T : Vector Byte 256) (ch : Byte) (w : Vector WinSlot 4) : List (Bool × Byte) :=
  [(w[1].vld, mix T ch w[0].val w[1].val 0),
   (w[2].vld, mix T ch w[0].val w[2].val 1),
   (w[2].vld, mix T ch w[1].val w[2].val 2),
   (w[3].vld, mix T ch w[0].val w[3].val 3),
   (w[3].vld, mix T ch w[1].val w[3].val 4),
   (w[3].vld, mix T ch w[2].val w[3].val 5),
   (w[3].vld, mix T w[3].val w[0].val ch 6),
   (w[3].vld, mix T w[3].val w[2].val ch 7)]

/-- Every element of the state tuple of R20 at the reset value of R251. -/
def AtReset (s : State) : Prop :=
  s.tran = gen 53 ∧ s.cnt = 0 ∧ (∀ i : Byte, entry s.acc i = 0) ∧ (∀ k : Fin 4, s.win[k] = ⟨0, false⟩) ∧
    (∀ m : Fin 32, s.dbuf[m] = 0) ∧ s.ill = false ∧ s.ovf = false ∧ s.phase = .resetInit

/-- The word that the next step completes, if it completes one: the Busy command, or the command the host offers while the
core is idle. -/
def runsNext (s : State) (w : Word) : Prop :=
  s.phase = .busy w ∧ (∀ rest, s.pending ≠ .rst :: rest) ∨
    s.phase = .idle ∧ ∃ rest, s.pending = .cmd w :: rest

/-- The host asserts reset in the next step. -/
def resetNext (s : State) : Prop := ∃ rest, s.pending = .rst :: rest

end Sys2Proof.Spec

open Sys2Proof Sys2Proof.Machine Sys2Proof.Spec

/-! ### Encoding -/

/-- Words written out from R73 and R75, one or more per family, with the examples of R80. -/
def Obligations.SampleWordsDecode : Prop :=
  decode 0x00000000 = .command .nop ∧ decode 0x02000001 = .command (.stat true) ∧
  decode 0x08000035 = .command (.gen 53) ∧ decode 0x09005500 = .command (.twr 0 0x55) ∧
  decode 0x13636261 = .command (.upd3 0x61 0x62 0x63) ∧ decode 0x19000007 = .command (.drd 7) ∧
  decode 0x1A0001FF = .command (.ard 255 true) ∧ decode 0x1B000100 = .command (.crd true) ∧
  decode 0x20616263 = .command (.mix0 0x63 0x62 0x61) ∧ decode 0x25030201 = .command (.mix5 1 2 3) ∧
  decode 0x08000135 = .illegal .reservedBit ∧ decode 0x1D000000 = .illegal .unassignedOpcode

/-- Decoding the word of any command gives the command back, for every value of every operand (R73 to R75). -/
def Obligations.DecodeOfEncode : Prop := ∀ i : Instr, decode (encode i) = .command i

/-- A word has at most one meaning: a word that decodes to a command is that command's word (R72, R77). -/
def Obligations.EncodeOfDecode : Prop := ∀ (w : Word) (i : Instr), decode w = .command i → encode i = w

/-- R76: every word is exactly one command, and then exactly that command's row of R75 matches it and the core executes the
command, or it is illegal, and then no row matches it and the core applies R221. -/
def Obligations.DecodeIsTheMatchTable : Prop :=
  ∀ w : Word,
    (∃ i, decode w = .command i ∧ matchTable.filter (fun r => r.hits w) = [matchRow i] ∧ ∀ s, execWord w s = exec i s) ∨
      (∃ why, decode w = .illegal why ∧ matchTable.filter (fun r => r.hits w) = [] ∧
        ∀ s, execWord w s = .next { s with ill := true, phase := .rspPending ⟨.illegal, 0⟩ })

/-- R77: which words are illegal, for which of the two reasons, and that R221 handles them. -/
def Obligations.IllegalWordsAreThese : Prop :=
  ((List.range 256).filter unassigned).length = 233 ∧
  ∀ w : Word,
    (decode w = .illegal .unassignedOpcode ↔ unassigned (opc w).toNat = true) ∧
    (decode w = .illegal .reservedBit ↔
      unassigned (opc w).toNat = false ∧ w &&& reservedBits (opc w).toNat ≠ 0) ∧
    (∀ (why : IllegalWord) (s : State), decode w = .illegal why →
      execWord w s = .next { s with ill := true, phase := .rspPending ⟨.illegal, 0⟩ })

/-- R80: the words that lines of assembly stand for, and that assembly fails when an operand does not fit its field. -/
def Obligations.AssemblyWordsAndMisfits : Prop :=
  ∀ x y z n : Nat,
    assembleWords (.gen x) = (if x < 256 then some [BitVec.ofNat 32 (0x08000000 + x)] else none) ∧
    assembleWords (.twr x y) = (if x < 256 ∧ y < 256 then some [BitVec.ofNat 32 (0x09000000 + y * 256 + x)] else none) ∧
    assembleWords (.trd x) = (if x < 256 then some [BitVec.ofNat 32 (0x0A000000 + x)] else none) ∧
    assembleWords (.upd1 x) = (if x < 256 then some [BitVec.ofNat 32 (0x11000000 + x)] else none) ∧
    assembleWords (.upd2 x y) = (if x < 256 ∧ y < 256 then some [BitVec.ofNat 32 (0x12000000 + y * 256 + x)] else none) ∧
    assembleWords (.upd3 x y z) =
      (if x < 256 ∧ y < 256 ∧ z < 256 then some [BitVec.ofNat 32 (0x13000000 + z * 65536 + y * 256 + x)] else none) ∧
    assembleWords (.drd x) = (if x < 8 then some [BitVec.ofNat 32 (0x19000000 + x)] else none) ∧
    assembleWords (.ard x y) = (if x < 256 ∧ y < 2 then some [BitVec.ofNat 32 (0x1A000000 + y * 256 + x)] else none) ∧
    assembleWords (.crd y) = (if y < 2 then some [BitVec.ofNat 32 (0x1B000000 + y * 256)] else none) ∧
    assembleWords (.stat (some x)) = (if x < 2 then some [BitVec.ofNat 32 (0x02000000 + x)] else none) ∧
    assembleWords (.mix n x y z) =
      (if n < 8 ∧ x < 256 ∧ y < 256 ∧ z < 256 then
        some [BitVec.ofNat 32 ((0x20 + n) * 16777216 + z * 65536 + y * 256 + x)] else none)

/-- R81: the pseudo-instruction UPD carries the bytes in order, in ⌊k/3⌋ UPD3 commands and one more for a rest. -/
def Obligations.UpdPseudoCarriesTheBytes : Prop :=
  ∀ bytes : List Nat, bytes ≠ [] → (∀ b ∈ bytes, b < 256) →
    ∃ is, assemble (.upd bytes) = some is ∧ is.flatMap inputBytes = bytes.map (BitVec.ofNat 8) ∧
      is.length = (bytes.length + 2) / 3 ∧
      (is.take (bytes.length / 3)).all (fun i => (inputBytes i).length == 3) = true

/-! ### Reset -/

/-- The state right after reset has the reset value of every element (R20 to R31). -/
def Obligations.ResetStateValues : Prop := AtReset State.reset

/-- R107: the table that reset loads is the listing, and the listing is `gen(53)`. -/
def Obligations.DefaultTableIsGen53 : Prop := gen 53 = Config.defaultTable ∧ State.reset.tran = gen 53

/-- A rising edge with `rst = 1` gives every element its reset value from any state and any phase, and while `rst = 1` the
core is not ready and presents nothing (R251). Two parts are the model's: that what the host has taken stays as it is (log 1),
and the premise that the edge breaks no protocol, which by log 6's reading leaves out a reset edge that drops an offered word. -/
def Obligations.ResetEdgeResetsEverything : Prop :=
  (∀ (c : Clocked) (p : PortsIn), p.rst = true → violationAt c p = none →
    ∃ c', edge c p = .next c' ∧ AtReset c'.core ∧ c'.core.taken = c.core.taken) ∧
  (∀ c : Clocked, (outputs c true).cmdReady = false ∧ (outputs c true).rspValid = false)

/-- R251 at the command level: a reset takes effect from any state, drops a Busy command and a waiting response, and leaves
only the host's own lists (log 1). -/
def Obligations.ResetStepResetsEverything : Prop :=
  ∀ (s : State) (rest : List HostEvent), s.pending = .rst :: rest →
    ∃ t, step s = .next t ∧ AtReset t ∧ t.pending = rest ∧ t.taken = s.taken

/-! ### The transition table -/

/-- R100: slot by slot, `gen` places the value that the loop of the rule computes from the value placed before. -/
def Obligations.GenFollowsTheLoop : Prop :=
  ∀ (seed : Byte) (i : Nat), i < 256 →
    let t := (gen seed).toList.map BitVec.toNat
    let j := (if i = 0 then 0 else t.getD (i - 1) 0)
    let folded := (if (j * seed.toNat + 1) % 256 + (j * seed.toNat + 1) % 256 > 255
      then (j * seed.toNat + 1) % 256 + (j * seed.toNat + 1) % 256 - 255
      else (j * seed.toNat + 1) % 256 + (j * seed.toNat + 1) % 256)
    t.getD i 0 = scanLoop (t.take i) 66000 folded 0

/-- R101: double-and-fold is a rotate left of eight bits; the scan ends at the first value of the cyclic sequence that is not
placed; and so the used-vector generator gives the same table for every seed. -/
def Obligations.GenReadingsAgree : Prop :=
  (∀ j, j < 256 → doubleFold j = rotl8 j) ∧
  (∀ (placed : List Nat) (j : Nat), placed.length < 256 → j < 256 →
    ∃ d, d < 256 ∧ scan placed 256 j = (j + d) % 256 ∧ (j + d) % 256 ∉ placed ∧
      ∀ e, e < d → (j + e) % 256 ∈ placed) ∧
  (∀ seed : Byte, (gen seed).toList = (genUsedValues seed).map (BitVec.ofNat 8))

/-- The guarantee of R102: for every seed the table holds every byte exactly once, and its XOR is 0. -/
def Obligations.GenIsAPermutation : Prop :=
  ∀ seed : Byte, (∀ v : Byte, (gen seed).toList.count v = 1) ∧ tableXor (gen seed) = 0

/-- The XOR of every permutation is 0, whatever construction made it (R102, R106, C2). -/
def Obligations.PermutationXorsToZero : Prop :=
  ∀ T : Vector Byte 256, (∀ i k : Fin 256, i < k → T[i] ≠ T[k]) → tableXor T = 0

/-- Seeds 0 and 128 give the table `TRAN[i] = (i + 2) mod 256` (R103, corner cases). -/
def Obligations.GenOfSeedZero : Prop := (∀ i : Byte, entry (gen 0) i = i + 2) ∧ gen 128 = gen 0

/-- GEN loads the generated table and changes nothing else (R103). -/
def Obligations.GenResult : Prop :=
  ∀ (seed : Byte) (s : State),
    exec (.gen seed) s = .next { s with tran := gen seed, phase := .rspPending ⟨.ok, 0⟩ }

/-- TWR writes the one entry and leaves every other entry and everything else (R104). -/
def Obligations.TwrResult : Prop :=
  ∀ (idx val : Byte) (s : State),
    ∃ T : Vector Byte 256,
      exec (.twr idx val) s = .next { s with tran := T, phase := .rspPending ⟨.ok, 0⟩ } ∧
      ∀ i : Byte, entry T i = if i = idx then val else entry s.tran i

/-- TRD reads the entry, zero-extended, and changes nothing (R105). -/
def Obligations.TrdResult : Prop :=
  ∀ (idx : Byte) (s : State),
    ∃ d : Word,
      exec (.trd idx) s = .next { s with phase := .rspPending ⟨.ok, d⟩ } ∧
      d.toNat = tableAt s.tran idx.toNat

/-- TCHK reports the XOR in data[7:0] and, in data[8], whether all entries differ; it changes nothing (R106). -/
def Obligations.TchkResult : Prop :=
  ∀ s : State,
    ∃ d : Word,
      exec .tchk s = .next { s with phase := .rspPending ⟨.ok, d⟩ } ∧
      d.extractLsb' 0 8 = s.tran.toList.foldl (· ^^^ ·) 0 ∧
      (d.getLsbD 8 = true ↔ ∀ i k : Fin 256, i < k → s.tran[i] ≠ s.tran[k]) ∧
      d.extractLsb' 9 23 = 0

/-- After any GEN, TCHK returns 0x00000100 (R106, corner cases). -/
def Obligations.TchkAfterGen : Prop :=
  ∀ (seed : Byte) (s t : State), exec (.gen seed) s = .next t →
    exec .tchk t = .next { t with phase := .rspPending ⟨.ok, 0x100⟩ }

/-! ### The mixer -/

/-- R130, in exact integers reduced mod 256 where the rule reduces. -/
def Obligations.MixFormula : Prop :=
  ∀ (T : Vector Byte 256) (a b c : Byte) (n : Fin 8),
    (mix T a b c n).toNat =
      (((tableAt T ((a.toNat + n.val) % 256)) ^^^ ((tableAt T b.toNat * (2 * n.val + 1)) % 256)) +
        tableAt T (c.toNat ^^^ tableAt T n.val)) % 256

/-- MIX0 to MIX7 respond with the bucket of their own slot and change nothing (R132 to R139). -/
def Obligations.MixCommandResults : Prop :=
  ∀ (a b c : Byte) (s : State),
    exec (.mix0 a b c) s = .next { s with phase := .rspPending ⟨.ok, (mix s.tran a b c 0).setWidth 32⟩ } ∧
    exec (.mix1 a b c) s = .next { s with phase := .rspPending ⟨.ok, (mix s.tran a b c 1).setWidth 32⟩ } ∧
    exec (.mix2 a b c) s = .next { s with phase := .rspPending ⟨.ok, (mix s.tran a b c 2).setWidth 32⟩ } ∧
    exec (.mix3 a b c) s = .next { s with phase := .rspPending ⟨.ok, (mix s.tran a b c 3).setWidth 32⟩ } ∧
    exec (.mix4 a b c) s = .next { s with phase := .rspPending ⟨.ok, (mix s.tran a b c 4).setWidth 32⟩ } ∧
    exec (.mix5 a b c) s = .next { s with phase := .rspPending ⟨.ok, (mix s.tran a b c 5).setWidth 32⟩ } ∧
    exec (.mix6 a b c) s = .next { s with phase := .rspPending ⟨.ok, (mix s.tran a b c 6).setWidth 32⟩ } ∧
    exec (.mix7 a b c) s = .next { s with phase := .rspPending ⟨.ok, (mix s.tran a b c 7).setWidth 32⟩ }

/-! ### The stream engine -/

/-- R150 with R151: the count goes up by one; each bucket gains one for every open row of the table whose trigram selects it,
computed from the window before the byte; the window slides; nothing else changes. -/
def Obligations.AbsorbEffect : Prop :=
  ∀ (s : State) (ch : Byte),
    (∃ (acc : Vector Count 256) (win : Vector WinSlot 4),
      absorb s ch = { s with cnt := s.cnt + 1, acc := acc, win := win } ∧
      (∀ i : Byte, entry acc i = entry s.acc i +
        BitVec.ofNat 64 ((trigramRows s.tran ch s.win).filter fun r => r.1 && r.2 == i).length) ∧
      win[0] = ⟨ch, true⟩ ∧ win[1] = s.win[0] ∧ win[2] = s.win[1] ∧ win[3] = s.win[2])

/-- Below the count limit UPD1, UPD2 and UPD3 absorb their bytes, `D0` first, and report the low 32 bits of the new count
(R155 to R157). -/
def Obligations.UpdateResults : Prop :=
  ∀ (d0 d1 d2 : Byte) (s : State),
    (s.cnt.toNat + 1 ≤ 2 ^ 61 - 1 →
      exec (.upd1 d0) s =
        .next { absorb s d0 with phase := .rspPending ⟨.ok, BitVec.ofNat 32 (s.cnt.toNat + 1)⟩ }) ∧
    (s.cnt.toNat + 2 ≤ 2 ^ 61 - 1 →
      exec (.upd2 d0 d1) s =
        .next { absorb (absorb s d0) d1 with phase := .rspPending ⟨.ok, BitVec.ofNat 32 (s.cnt.toNat + 2)⟩ }) ∧
    (s.cnt.toNat + 3 ≤ 2 ^ 61 - 1 →
      exec (.upd3 d0 d1 d2) s =
        .next { absorb (absorb (absorb s d0) d1) d2 with
          phase := .rspPending ⟨.ok, BitVec.ofNat 32 (s.cnt.toNat + 3)⟩ })

/-- R153 with R222: an UPDn carrying n bytes is performed only if the count stays within 2^61 − 1; otherwise none of its bytes
is absorbed, `STAT.OVF` becomes 1, and nothing else changes. -/
def Obligations.CountLimitRefusesWhole : Prop :=
  ∀ (i : Instr) (s : State), inputBytes i ≠ [] →
    (s.cnt.toNat + (inputBytes i).length ≤ 2 ^ 61 - 1 →
      exec i s = .next { absorbAll s (inputBytes i) with
        phase := .rspPending ⟨.ok, BitVec.ofNat 32 (s.cnt.toNat + (inputBytes i).length)⟩ } ∧
      (absorbAll s (inputBytes i)).cnt.toNat = s.cnt.toNat + (inputBytes i).length) ∧
    (2 ^ 61 - 1 < s.cnt.toNat + (inputBytes i).length →
      exec i s = .next { s with ovf := true, phase := .rspPending ⟨.overflow, 0⟩ })

/-- INIT clears the hash state, `DBUF` and `STAT.OVF`, and leaves `TRAN` and `STAT.ILL` (R154). -/
def Obligations.InitResult : Prop :=
  ∀ s : State,
    ∃ (acc : Vector Count 256) (win : Vector WinSlot 4) (dbuf : Vector Byte 32),
      exec .init s = .next { s with
        cnt := 0, acc := acc, win := win, dbuf := dbuf, ovf := false, phase := .rspPending ⟨.ok, 0⟩ } ∧
      (∀ i : Byte, entry acc i = 0) ∧ (∀ k : Fin 4, win[k] = ⟨0, false⟩) ∧ (∀ m : Fin 32, dbuf[m] = 0)

/-- R158: in every reachable state the counters sum to `total(CNT)` and none exceeds it, so that none wraps in 64 bits; and
the m-th byte makes 0, 0, 1, 3 and then 8 increments. -/
def Obligations.TrigramCountLaw : Prop :=
  (∀ s, Reachable s → accSum s = total s.cnt.toNat ∧ (∀ i : Byte, (entry s.acc i).toNat ≤ total s.cnt.toNat) ∧
    total s.cnt.toNat ≤ 2 ^ 64 - 36) ∧
  (∀ (s : State) (ch : Byte), Reachable s → s.cnt.toNat < 2 ^ 61 - 1 →
    accSum (absorb s ch) = accSum s +
      (if s.cnt.toNat + 1 ≤ 2 then 0 else if s.cnt.toNat + 1 = 3 then 1 else if s.cnt.toNat + 1 = 4 then 3 else 8))

/-- R159: two sequences of commands that neither change `TRAN` nor start a fresh hash and that carry the same bytes, however
split and with reads in between, complete and leave the same hash state and so the same digest. -/
def Obligations.StreamingEquivalence : Prop :=
  ∀ (s : State) (xs ys : List Instr),
    (∀ i ∈ xs, keepsStream i = true) → (∀ i ∈ ys, keepsStream i = true) →
    xs.flatMap inputBytes = ys.flatMap inputBytes →
    s.cnt.toNat + (xs.flatMap inputBytes).length ≤ 2 ^ 61 - 1 →
    ∃ t u, runCommands xs s = .next t ∧ runCommands ys s = .next u ∧
      t.cnt = u.cnt ∧ t.acc = u.acc ∧ t.win = u.win ∧ t.tran = u.tran ∧ digest t = digest u ∧
      t.cnt = (absorbAll s (xs.flatMap inputBytes)).cnt ∧ t.acc = (absorbAll s (xs.flatMap inputBytes)).acc ∧
      t.win = (absorbAll s (xs.flatMap inputBytes)).win

/-- R25: a slot is valid exactly when more than k bytes have been absorbed, in every reachable state, and then it holds the
(k+1)-th most recent byte. -/
def Obligations.WindowHoldsTheLastBytes : Prop :=
  (∀ (s : State) (k : Fin 4), Reachable s → (s.win[k].vld = true ↔ s.cnt.toNat > k.val)) ∧
  (∀ s : State, Reachable s → s.cnt.toNat ≥ 4 → ∀ k : Fin 4, s.win[k].vld = true) ∧
  (∀ (s : State) (bytes : List Byte) (k : Fin 4), k.val < bytes.length →
    (absorbAll s bytes).win[k] = ⟨bytes.reverse.getD k.val 0, true⟩)

/-- The count falls only through INIT and reset (R22). -/
def Obligations.CountFallsOnlyByInitOrReset : Prop :=
  ∀ s t : State, Inv s → step s = .next t → t.cnt.toNat < s.cnt.toNat → runsNext s 0x01000000 ∨ resetNext s

/-! ### The digest extractor -/

/-- R180: the formula, the sequence 0, 0, 0, 1, 4, 12, 20, 28, the bound within `COUNT_MAX`, and the equality with the sum of
the counters in every reachable state. -/
def Obligations.TotalFormula : Prop :=
  (∀ c, c < 3 → total c = 0) ∧ total 3 = 1 ∧ total 4 = 4 ∧ (∀ c, c > 4 → total c = 8 * c - 28) ∧
  (List.range 8).map total = [0, 0, 0, 1, 4, 12, 20, 28] ∧
  (∀ c, c ≤ 2 ^ 61 - 1 → total c ≤ 2 ^ 64 - 36) ∧
  (∀ s, Reachable s → total s.cnt.toNat = accSum s)

/-- R182, R183 and R184: a bucket's bit is 1 if its counter is strictly above the threshold; bit(i) is bit `i & 7` of
`P[i >> 3]`; and the digest is `P` reversed. -/
def Obligations.DigestPackingAndReversal : Prop :=
  (∀ (s : State) (i : Fin 256), bucketBit s i.val = true ↔ s.acc[i].toNat > total s.cnt.toNat / 256) ∧
  (∀ (s : State) (i : Fin 256), (packedByte s (i.val >>> 3)).getLsbD (i.val &&& 7) = bucketBit s i.val) ∧
  (∀ (s : State) (m : Fin 32), (digest s)[m] = packedByte s (31 - m.val))

/-- R185: bit b of `digest[m]` belongs to bucket `8·(31 − m) + b`, and as one big-endian 256-bit number the digest has bucket
i at bit position i. -/
def Obligations.DigestClosedForm : Prop :=
  ∀ s : State,
    (∀ (m : Fin 32) (b : Fin 8),
      (digest s)[m].getLsbD b.val = decide ((s.acc.toList.getD (8 * (31 - m.val) + b.val) 0).toNat > threshold s)) ∧
    (∀ i : Fin 256,
      ((digest s).toList.foldl (fun v (byte : Byte) => v * 256 + byte.toNat) 0).testBit i.val =
        decide (s.acc[i].toNat > threshold s))

/-- R181: the threshold is the total divided by 256 (its shift by 8), 0 up to 35 bytes and 1 at 36. -/
def Obligations.ThresholdValue : Prop :=
  ∀ s : State,
    threshold s = total s.cnt.toNat / 256 ∧ threshold s = total s.cnt.toNat >>> 8 ∧
    (s.cnt.toNat ≤ 35 → total s.cnt.toNat ≤ 252 ∧ threshold s = 0) ∧
    (s.cnt.toNat = 36 → total s.cnt.toNat = 260 ∧ threshold s = 1)

/-- R186(b) and (c): with at most two bytes the digest is 32 zero bytes, and below 36 bytes a bit is 1 exactly when its bucket
was selected at least once. -/
def Obligations.DigestOfShortInputs : Prop :=
  ∀ s : State, Inv s →
    (s.cnt.toNat ≤ 2 → ∀ m : Fin 32, (digest s)[m] = 0) ∧
    (s.cnt.toNat < 36 → ∀ (m : Fin 32) (b : Fin 8),
      ((digest s)[m].getLsbD b.val = true ↔ s.acc.toList.getD (8 * (31 - m.val) + b.val) 0 ≠ 0))

/-- DIG stores the digest, reports the low 32 bits of the threshold, and changes nothing else (R187). -/
def Obligations.DigResult : Prop :=
  ∀ s : State,
    exec .dig s = .next { s with
      dbuf := digest s, phase := .rspPending ⟨.ok, BitVec.ofNat 32 (total s.cnt.toNat / 256)⟩ }

/-- R53: DRD with word select w returns `DBUF[4w]` in data[31:24] down to `DBUF[4w+3]` in data[7:0], and changes nothing
(R188). -/
def Obligations.DrdResult : Prop :=
  ∀ (ws : BitVec 3) (s : State),
    ∃ d : Word,
      exec (.drd ws) s = .next { s with phase := .rspPending ⟨.ok, d⟩ } ∧
      d.extractLsb' 24 8 = s.dbuf.toList.getD (4 * ws.toNat) 0 ∧
      d.extractLsb' 16 8 = s.dbuf.toList.getD (4 * ws.toNat + 1) 0 ∧
      d.extractLsb' 8 8 = s.dbuf.toList.getD (4 * ws.toNat + 2) 0 ∧
      d.extractLsb' 0 8 = s.dbuf.toList.getD (4 * ws.toNat + 3) 0

/-- R257: after a DIG, whatever commands run other than DIG and INIT, `DBUF` is still the digest of the state at that DIG, and
so are the words DRD returns; after an INIT they are zero until the next DIG. -/
def Obligations.SnapshotStaysUntilDigOrInit : Prop :=
  ∀ (s t u : State) (cmds : List Instr) (ws : BitVec 3), (∀ i ∈ cmds, i ≠ .dig ∧ i ≠ .init) → runCommands cmds t = .next u →
    (exec .dig s = .next t → u.dbuf = digest s ∧
      exec (.drd ws) u = .next { u with phase := .rspPending ⟨.ok, dbufWord (digest s) ws⟩ }) ∧
    (exec .init s = .next t → (∀ m : Fin 32, u.dbuf[m] = 0) ∧
      exec (.drd ws) u = .next { u with phase := .rspPending ⟨.ok, 0⟩ })

/-! ### Control and read-back -/

/-- NOP responds and changes nothing (R200). -/
def Obligations.NopResult : Prop := ∀ s : State, exec .nop s = .next { s with phase := .rspPending ⟨.ok, 0⟩ }

/-- STAT reads the layout of R27 and R30 from before the clear, and clears only `STAT.ILL`, only when CLR = 1 (R201). -/
def Obligations.StatResult : Prop :=
  ∀ (clr : Bool) (s : State),
    ∃ v : Word,
      exec (.stat clr) s = .next { s with ill := s.ill && !clr, phase := .rspPending ⟨.ok, v⟩ } ∧
      v.getLsbD 0 = s.ill ∧ v.getLsbD 1 = s.ovf ∧ v.getLsbD 2 = false ∧ v.getLsbD 3 = false ∧
      (∀ k : Fin 4, v.getLsbD (4 + k.val) = s.win[k].vld) ∧ v.extractLsb' 8 24 = 0

/-- R54: CRD and ARD return bits [31:0] for H = 0 and bits [63:32] for H = 1, and change nothing; the two halves make the
64-bit value. -/
def Obligations.CounterHalves : Prop :=
  ∀ (idx : Byte) (s : State),
    ∃ cl ch al ah : Word,
      exec (.crd false) s = .next { s with phase := .rspPending ⟨.ok, cl⟩ } ∧
      exec (.crd true) s = .next { s with phase := .rspPending ⟨.ok, ch⟩ } ∧
      exec (.ard idx false) s = .next { s with phase := .rspPending ⟨.ok, al⟩ } ∧
      exec (.ard idx true) s = .next { s with phase := .rspPending ⟨.ok, ah⟩ } ∧
      ch.toNat * 2 ^ 32 + cl.toNat = s.cnt.toNat ∧ ah.toNat * 2 ^ 32 + al.toNat = (entry s.acc idx).toNat

/-- WRD returns the four window values, `WIN[0]` in data[7:0], and changes nothing (R204). -/
def Obligations.WrdResult : Prop :=
  ∀ s : State,
    ∃ d : Word,
      exec .wrd s = .next { s with phase := .rspPending ⟨.ok, d⟩ } ∧
      ∀ k : Fin 4, d.extractLsb' (8 * k.val) 8 = s.win[k].val

/-! ### Errors and whole-machine rules -/

/-- R221 and R223: a word that is not a command sets `STAT.ILL`, gives the response ILLEGAL with data 0, and does nothing else,
whatever the state: at the count limit too, where `STAT.OVF` stays as it is. -/
def Obligations.IllegalWordEffect : Prop :=
  ∀ (s : State) (w : Word), (∀ i : Instr, encode i ≠ w) →
    execWord w s = .next { s with ill := true, phase := .rspPending ⟨.illegal, 0⟩ }

/-- R28: an illegal word sets `STAT.ILL`; it stays 1 until reset or STAT with CLR = 1, which reads it first; INIT keeps it; reset
gives 0. -/
def Obligations.IllIsSticky : Prop :=
  (∀ (s : State) (w : Word) (why : IllegalWord), decode w = .illegal why →
    ∃ t, execWord w s = .next t ∧ t.ill = true ∧ t.phase = .rspPending ⟨.illegal, 0⟩) ∧
  (∀ s t : State, step s = .next t → s.ill = true → t.ill = true ∨ runsNext s 0x02000001 ∨ resetNext s) ∧
  (∀ s : State, ∃ t v, exec (.stat true) s = .next t ∧ t.phase = .rspPending ⟨.ok, v⟩ ∧ v.getLsbD 0 = s.ill ∧
    t.ill = false) ∧
  (∀ s : State, ∃ t, exec .init s = .next t ∧ t.ill = s.ill) ∧ State.reset.ill = false

/-- `STAT.OVF` stays 1 until reset or INIT (R29). -/
def Obligations.OvfIsSticky : Prop :=
  ∀ s t : State, step s = .next t → s.ovf = true → t.ovf = true ∨ runsNext s 0x01000000 ∨ resetNext s

/-- The writers of the table of R51: each element changes only by the commands listed there, and no command touches the
host's side. -/
def Obligations.WritersOfEachElement : Prop :=
  ∀ (i : Instr) (s t : State), exec i s = .next t →
    (t.tran ≠ s.tran → (∃ seed, i = .gen seed) ∨ ∃ idx val, i = .twr idx val) ∧
    (t.cnt ≠ s.cnt ∨ t.acc ≠ s.acc ∨ t.win ≠ s.win → i = .init ∨ inputBytes i ≠ []) ∧
    (t.dbuf ≠ s.dbuf → i = .dig ∨ i = .init) ∧
    (t.ill ≠ s.ill → i = .stat true) ∧
    (t.ovf ≠ s.ovf → i = .init ∨ inputBytes i ≠ []) ∧
    t.pending = s.pending ∧ t.taken = s.taken

/-- Every word but the UPDn commands and STAT with CLR = 1 is idempotent: a second issue gives the same response and the same
state, the illegal words too (R58). -/
def Obligations.RepeatedCommandsAreIdempotent : Prop :=
  ∀ (w : Word) (s t : State), (∀ i, decode w = .command i → inputBytes i = [] ∧ i ≠ .stat true) →
    execWord w s = .next t → execWord w t = .next t

/-- A step in Idle runs the command its word decodes to: exec of that command in Busy, then its response is handed over; and
a word that is no command only sets `STAT.ILL` and hands over its ILLEGAL response (the lists of the host's side are the
model's, log 1). -/
def Obligations.StepRunsTheDecodedCommand : Prop :=
  ∀ (s : State) (w : Word) (rest : List HostEvent), s.phase = .idle → s.pending = .cmd w :: rest →
    (∀ i : Instr, decode w = .command i →
      ∃ t r, exec i { s with phase := .busy w, pending := rest } = .next t ∧ t.phase = .rspPending r ∧
        step s = .next { t with phase := .idle, taken := t.taken ++ [r] }) ∧
    (∀ why : IllegalWord, decode w = .illegal why →
      step s = .next { s with ill := true, pending := rest, taken := s.taken ++ [⟨.illegal, 0⟩] })

/-- The words the host offers get one response each, in their order, none of them with the reserved status and none with
data but under OK (R66, R71; the lists of the host's side are the model's, log 1). -/
def Obligations.OneResponsePerCommandInOrder : Prop :=
  ∀ (s : State) (words : List Word), s.phase = .idle → s.pending = words.map .cmd →
    ∃ rs : List Response, rs.length = words.length ∧
      (∀ r ∈ rs, r.status ≠ .reserved ∧ (r.status ≠ .ok → r.data = 0)) ∧
      ∀ k, k ≤ words.length →
        ∃ t : State, Host.Core.run Sys2Proof.core k s = .next t ∧ t.phase = .idle ∧
          t.pending = (words.drop k).map .cmd ∧ t.taken = s.taken ++ rs.take k

/-- The invariant holds right after reset (R22 to R25, R71, R158). -/
def Obligations.InvariantAtReset : Prop := Inv State.reset

/-- Every step keeps the invariant: the count limit, the agreement of the window with the count, the sum of the counters and
the legality of every response. -/
def Obligations.EveryStepKeepsTheInvariant : Prop := ∀ s t : State, Inv s → step s = .next t → Inv t

/-- Under the invariant a step never faults, and it refuses only a host that breaks the protocol. That a violation is an event
of the host's list which the step refuses is the model's (log 6), after "A model refuses a run that contains one" (R260). The
second clause is the model's too (log 11): handing over a response with the reserved status, which the invariant excludes, is
a fault, after "A model observing it treats the core as faulted" (spec/93_implementation_defined.md I6). -/
def Obligations.OnlyProtocolViolationsStop : Prop :=
  (∀ s : State, Inv s →
    (∃ t, step s = .next t) ∨
      (∃ v rest, s.pending = .violation v :: rest ∧ step s = .refused (.protocolViolation v))) ∧
  (∀ (s : State) (r : Response), s.phase = .rspPending r → r.status = .reserved →
    (s.pending = [] ∨ ∃ w rest, s.pending = .cmd w :: rest) → step s = .fault .reservedStatus)

/-! ### The ports -/

/-- R255: `cmd_ready = 1` exactly in `Idle`, 0 in `Busy` and `RspPending`, and only a word offered in a ready cycle becomes the
Busy command. -/
def Obligations.ReadyExactlyWhenIdle : Prop :=
  (∀ c : Clocked, (outputs c false).cmdReady = true ↔ (settled c).phase = .idle) ∧
  (∀ (c : Clocked) (rst : Bool), ((∃ w, c.core.phase = .busy w) ∨ (∃ r, c.core.phase = .rspPending r)) →
    (outputs c rst).cmdReady = false) ∧
  (∀ (c c' : Clocked) (p : PortsIn) (w : Word), edge c p = .next c' → c'.core.phase = .busy w →
    c.core.phase = .busy w ∨ ((outputs c p.rst).cmdReady = true ∧ p.cmdValid = true ∧ p.cmdData = w))

/-- A command transfers at an edge with `cmd_valid`, `cmd_ready` and no reset: `PHASE` goes from `Idle` to `Busy` with that
word, and nothing else of the core changes (R254). The count of edges left, which takes the free value of the latency, and the
readiness in the first cycle after a reset edge with `RST_LAT = 0` are the model's (log 4); the premise that the edge breaks no
protocol is log 6's reading. -/
def Obligations.CommandTransfer : Prop :=
  ∀ (c : Clocked) (p : PortsIn), violationAt c p = none → p.rst = false → (outputs c false).cmdReady = true →
    p.cmdValid = true →
    ∃ c', edge c p = .next c' ∧ c'.core = { c.core with phase := .busy p.cmdData } ∧ c'.offer = none ∧
      c'.left = Config.lat c.cycle p.cmdData (settled c) ∧ (outputs c' false).rspValid = false

/-- A command that completes is presented with the status and data its rule gives; the core holds them unchanged while the host
is not ready; and when it is, the response transfers and the core is idle (R256). The model's own: that a Busy command counts
`left` down and completes at 0, with `LAT` counted beyond its minimum of 1 (log 4); that a response that transfers is added to
`taken` (log 1); and what breaks the protocol in the premises (log 6). -/
def Obligations.ResponseHeldUntilTaken : Prop :=
  (∀ (c : Clocked) (p : PortsIn) (w : Word) (n : Nat), violationAt c p = none → p.rst = false → c.core.phase = .busy w →
    c.left = n + 1 →
    ∃ c', edge c p = .next c' ∧ c'.core = c.core ∧ c'.left = n ∧ (outputs c' false).rspValid = false) ∧
  (∀ (c : Clocked) (p : PortsIn) (w : Word), violationAt c p = none → p.rst = false → c.core.phase = .busy w → c.left = 0 →
    ∃ c' r, edge c p = .next c' ∧ execWord w c.core = .next c'.core ∧ c'.core.phase = .rspPending r ∧
      (outputs c' false).rspValid = true ∧ (outputs c' false).rspStatus = statusCode r.status ∧
      (outputs c' false).rspData = r.data) ∧
  (∀ (c : Clocked) (p : PortsIn) (r : Response), violationAt c p = none → p.rst = false → c.core.phase = .rspPending r →
    p.rspReady = false → ∃ c', edge c p = .next c' ∧ c'.core = c.core ∧ outputs c' false = outputs c false) ∧
  (∀ (c : Clocked) (p : PortsIn) (r : Response), violationAt c p = none → p.rst = false → c.core.phase = .rspPending r →
    r.status ≠ .reserved → p.rspReady = true →
    ∃ c', edge c p = .next c' ∧ c'.core = { c.core with phase := .idle, taken := c.core.taken ++ [r] })

/-- R64: an edge changes no element of R20 but `PHASE`, except an edge that completes the Busy command, which makes all of the
command's changes, and a reset. -/
def Obligations.CommandsAreAtomicAtThePorts : Prop :=
  ∀ (c c' : Clocked) (p : PortsIn), edge c p = .next c' →
    p.rst = true ∨
    (∃ w, c.core.phase = .busy w ∧ execWord w c.core = .next c'.core) ∨
    (c'.core.tran = c.core.tran ∧ c'.core.cnt = c.core.cnt ∧ c'.core.acc = c.core.acc ∧ c'.core.win = c.core.win ∧
      c'.core.dbuf = c.core.dbuf ∧ c'.core.ill = c.core.ill ∧ c'.core.ovf = c.core.ovf)

/-- A run that breaks the protocol is refused, and `rsp_ready` is unconstrained (R260). The model's own (log 6): that an
asynchronous change of `rst` shows as the input bit `rstGlitch`, and that an offered word must be held across a reset edge
too, so that dropping or changing it after one is refused. -/
def Obligations.ProtocolViolationsAreRefused : Prop :=
  (∀ (c : Clocked) (p : PortsIn), p.rstGlitch = true → edge c p = .refused (.protocolViolation .resetAsynchronous)) ∧
  (∀ (c c' : Clocked) (p q : PortsIn), edge c p = .next c' → p.cmdValid = true →
    ¬ (p.rst = false ∧ (outputs c false).cmdReady = true) →
    q.rstGlitch = false → (q.cmdValid = false ∨ q.cmdData ≠ p.cmdData) →
    edge c' q = .refused (.protocolViolation .commandUnstable)) ∧
  (∀ (c : Clocked) (p : PortsIn) (ready : Bool), violationAt c { p with rspReady := ready } = violationAt c p)

/-- After a reset edge at which no word is offered, the core is ready after `n` quiet cycles if and only if `RST_LAT ≤ n`
(R252). Where the latency is counted from is the model's (log 4): at `RST_LAT = 0` the core is ready in the first cycle after
the reset edge. A reset edge with a word offered is left out, because the quiet cycles after it would drop the word (log 6). -/
def Obligations.ReadyAfterResetLatency : Prop :=
  ∀ (c : Clocked) (p : PortsIn) (n : Nat), violationAt c p = none → p.rst = true → p.cmdValid = false →
    ∃ c1 c2, edge c p = .next c1 ∧ edges c1 (List.replicate n quiet) = .next c2 ∧
      ((outputs c2 false).cmdReady = true ↔ Config.rstLat c.cycle ≤ n)

/-- The ports refine the command level (R4, R31, R61): from Idle, a transfer, then the command's latency, then any wait, then
the taking of the response leave exactly the state that one step leaves. The host's lists (log 1), the count of the latency
(log 4) and what one step takes together (log 10) are the model's. -/
def Obligations.PortsRefineTheStep : Prop :=
  ∀ (s : State) (w : Word) (left cycle wait : Nat), s.phase = .idle →
    ∃ c' t,
      edges { core := s, left := left, cycle := cycle, offer := none }
        (offering w :: List.replicate (Config.lat cycle w s + 1 + wait) quiet ++ [taking]) = .next c' ∧
      step { s with pending := .cmd w :: s.pending } = .next t ∧ c'.core = t ∧ c'.offer = none
end

