-- ==== Sys2Proof/Laws/State.lean ====
section
/-! SUPPORT. One lemma per field per update of State, each true by rfl and tagged simp, so that no proof unfolds a record
update. -/

namespace Sys2Proof.Machine

section respond
variable (st : Status) (data : Word) (s : State)

@[simp] theorem respond_tran : (respond st data s).tran = s.tran := rfl
@[simp] theorem respond_cnt : (respond st data s).cnt = s.cnt := rfl
@[simp] theorem respond_acc : (respond st data s).acc = s.acc := rfl
@[simp] theorem respond_win : (respond st data s).win = s.win := rfl
@[simp] theorem respond_dbuf : (respond st data s).dbuf = s.dbuf := rfl
@[simp] theorem respond_ill : (respond st data s).ill = s.ill := rfl
@[simp] theorem respond_ovf : (respond st data s).ovf = s.ovf := rfl
@[simp] theorem respond_phase : (respond st data s).phase = .rspPending ⟨st, data⟩ := rfl
@[simp] theorem respond_pending : (respond st data s).pending = s.pending := rfl
@[simp] theorem respond_taken : (respond st data s).taken = s.taken := rfl

end respond

section setIll
variable (s : State)

@[simp] theorem setIll_tran : (setIll s).tran = s.tran := rfl
@[simp] theorem setIll_cnt : (setIll s).cnt = s.cnt := rfl
@[simp] theorem setIll_acc : (setIll s).acc = s.acc := rfl
@[simp] theorem setIll_win : (setIll s).win = s.win := rfl
@[simp] theorem setIll_dbuf : (setIll s).dbuf = s.dbuf := rfl
@[simp] theorem setIll_ill : (setIll s).ill = true := rfl
@[simp] theorem setIll_ovf : (setIll s).ovf = s.ovf := rfl
@[simp] theorem setIll_phase : (setIll s).phase = s.phase := rfl
@[simp] theorem setIll_pending : (setIll s).pending = s.pending := rfl
@[simp] theorem setIll_taken : (setIll s).taken = s.taken := rfl

end setIll

section clearIll
variable (s : State)

@[simp] theorem clearIll_tran : (clearIll s).tran = s.tran := rfl
@[simp] theorem clearIll_cnt : (clearIll s).cnt = s.cnt := rfl
@[simp] theorem clearIll_acc : (clearIll s).acc = s.acc := rfl
@[simp] theorem clearIll_win : (clearIll s).win = s.win := rfl
@[simp] theorem clearIll_dbuf : (clearIll s).dbuf = s.dbuf := rfl
@[simp] theorem clearIll_ill : (clearIll s).ill = false := rfl
@[simp] theorem clearIll_ovf : (clearIll s).ovf = s.ovf := rfl
@[simp] theorem clearIll_phase : (clearIll s).phase = s.phase := rfl
@[simp] theorem clearIll_pending : (clearIll s).pending = s.pending := rfl
@[simp] theorem clearIll_taken : (clearIll s).taken = s.taken := rfl

end clearIll

section setOvf
variable (s : State)

@[simp] theorem setOvf_tran : (setOvf s).tran = s.tran := rfl
@[simp] theorem setOvf_cnt : (setOvf s).cnt = s.cnt := rfl
@[simp] theorem setOvf_acc : (setOvf s).acc = s.acc := rfl
@[simp] theorem setOvf_win : (setOvf s).win = s.win := rfl
@[simp] theorem setOvf_dbuf : (setOvf s).dbuf = s.dbuf := rfl
@[simp] theorem setOvf_ill : (setOvf s).ill = s.ill := rfl
@[simp] theorem setOvf_ovf : (setOvf s).ovf = true := rfl
@[simp] theorem setOvf_phase : (setOvf s).phase = s.phase := rfl
@[simp] theorem setOvf_pending : (setOvf s).pending = s.pending := rfl
@[simp] theorem setOvf_taken : (setOvf s).taken = s.taken := rfl

end setOvf

section raiseIllegal
variable (s : State)

@[simp] theorem raiseIllegal_tran : (raiseIllegal s).tran = s.tran := rfl
@[simp] theorem raiseIllegal_cnt : (raiseIllegal s).cnt = s.cnt := rfl
@[simp] theorem raiseIllegal_acc : (raiseIllegal s).acc = s.acc := rfl
@[simp] theorem raiseIllegal_win : (raiseIllegal s).win = s.win := rfl
@[simp] theorem raiseIllegal_dbuf : (raiseIllegal s).dbuf = s.dbuf := rfl
@[simp] theorem raiseIllegal_ill : (raiseIllegal s).ill = true := rfl
@[simp] theorem raiseIllegal_ovf : (raiseIllegal s).ovf = s.ovf := rfl
@[simp] theorem raiseIllegal_phase : (raiseIllegal s).phase = .rspPending ⟨.illegal, 0⟩ := rfl
@[simp] theorem raiseIllegal_pending : (raiseIllegal s).pending = s.pending := rfl
@[simp] theorem raiseIllegal_taken : (raiseIllegal s).taken = s.taken := rfl

end raiseIllegal

section raiseOverflow
variable (s : State)

@[simp] theorem raiseOverflow_tran : (raiseOverflow s).tran = s.tran := rfl
@[simp] theorem raiseOverflow_cnt : (raiseOverflow s).cnt = s.cnt := rfl
@[simp] theorem raiseOverflow_acc : (raiseOverflow s).acc = s.acc := rfl
@[simp] theorem raiseOverflow_win : (raiseOverflow s).win = s.win := rfl
@[simp] theorem raiseOverflow_dbuf : (raiseOverflow s).dbuf = s.dbuf := rfl
@[simp] theorem raiseOverflow_ill : (raiseOverflow s).ill = s.ill := rfl
@[simp] theorem raiseOverflow_ovf : (raiseOverflow s).ovf = true := rfl
@[simp] theorem raiseOverflow_phase : (raiseOverflow s).phase = .rspPending ⟨.overflow, 0⟩ := rfl
@[simp] theorem raiseOverflow_pending : (raiseOverflow s).pending = s.pending := rfl
@[simp] theorem raiseOverflow_taken : (raiseOverflow s).taken = s.taken := rfl

end raiseOverflow

section enterIdle
variable (s : State)

@[simp] theorem enterIdle_tran : (enterIdle s).tran = s.tran := rfl
@[simp] theorem enterIdle_cnt : (enterIdle s).cnt = s.cnt := rfl
@[simp] theorem enterIdle_acc : (enterIdle s).acc = s.acc := rfl
@[simp] theorem enterIdle_win : (enterIdle s).win = s.win := rfl
@[simp] theorem enterIdle_dbuf : (enterIdle s).dbuf = s.dbuf := rfl
@[simp] theorem enterIdle_ill : (enterIdle s).ill = s.ill := rfl
@[simp] theorem enterIdle_ovf : (enterIdle s).ovf = s.ovf := rfl
@[simp] theorem enterIdle_phase : (enterIdle s).phase = .idle := rfl
@[simp] theorem enterIdle_pending : (enterIdle s).pending = s.pending := rfl
@[simp] theorem enterIdle_taken : (enterIdle s).taken = s.taken := rfl

end enterIdle

section accept
variable (w : Word) (s : State)

@[simp] theorem accept_tran : (accept w s).tran = s.tran := rfl
@[simp] theorem accept_cnt : (accept w s).cnt = s.cnt := rfl
@[simp] theorem accept_acc : (accept w s).acc = s.acc := rfl
@[simp] theorem accept_win : (accept w s).win = s.win := rfl
@[simp] theorem accept_dbuf : (accept w s).dbuf = s.dbuf := rfl
@[simp] theorem accept_ill : (accept w s).ill = s.ill := rfl
@[simp] theorem accept_ovf : (accept w s).ovf = s.ovf := rfl
@[simp] theorem accept_phase : (accept w s).phase = .busy w := rfl
@[simp] theorem accept_pending : (accept w s).pending = s.pending := rfl
@[simp] theorem accept_taken : (accept w s).taken = s.taken := rfl

end accept

section offerNext
variable (w : Word) (s : State)

@[simp] theorem offerNext_tran : (offerNext w s).tran = s.tran := rfl
@[simp] theorem offerNext_cnt : (offerNext w s).cnt = s.cnt := rfl
@[simp] theorem offerNext_acc : (offerNext w s).acc = s.acc := rfl
@[simp] theorem offerNext_win : (offerNext w s).win = s.win := rfl
@[simp] theorem offerNext_dbuf : (offerNext w s).dbuf = s.dbuf := rfl
@[simp] theorem offerNext_ill : (offerNext w s).ill = s.ill := rfl
@[simp] theorem offerNext_ovf : (offerNext w s).ovf = s.ovf := rfl
@[simp] theorem offerNext_phase : (offerNext w s).phase = .idle := rfl
@[simp] theorem offerNext_pending : (offerNext w s).pending = .cmd w :: s.pending := rfl
@[simp] theorem offerNext_taken : (offerNext w s).taken = s.taken := rfl

end offerNext

section absorb
variable (s : State) (ch : Byte)

@[simp] theorem absorb_tran : (absorb s ch).tran = s.tran := rfl
@[simp] theorem absorb_cnt : (absorb s ch).cnt = s.cnt + 1 := rfl
@[simp] theorem absorb_acc : (absorb s ch).acc = slots.foldl (trigramStep s.tran ch s.win) s.acc := rfl
@[simp] theorem absorb_win : (absorb s ch).win = slide s.win ch := rfl
@[simp] theorem absorb_dbuf : (absorb s ch).dbuf = s.dbuf := rfl
@[simp] theorem absorb_ill : (absorb s ch).ill = s.ill := rfl
@[simp] theorem absorb_ovf : (absorb s ch).ovf = s.ovf := rfl
@[simp] theorem absorb_phase : (absorb s ch).phase = s.phase := rfl
@[simp] theorem absorb_pending : (absorb s ch).pending = s.pending := rfl
@[simp] theorem absorb_taken : (absorb s ch).taken = s.taken := rfl

end absorb

section applyReset
variable (s : State)

@[simp] theorem applyReset_tran : (applyReset s).tran = State.reset.tran := by simp only [applyReset]
@[simp] theorem applyReset_cnt : (applyReset s).cnt = State.reset.cnt := by simp only [applyReset]
@[simp] theorem applyReset_acc : (applyReset s).acc = State.reset.acc := by simp only [applyReset]
@[simp] theorem applyReset_win : (applyReset s).win = State.reset.win := by simp only [applyReset]
@[simp] theorem applyReset_dbuf : (applyReset s).dbuf = State.reset.dbuf := by simp only [applyReset]
@[simp] theorem applyReset_ill : (applyReset s).ill = State.reset.ill := by simp only [applyReset]
@[simp] theorem applyReset_ovf : (applyReset s).ovf = State.reset.ovf := by simp only [applyReset]
@[simp] theorem applyReset_phase : (applyReset s).phase = State.reset.phase := by simp only [applyReset]
@[simp] theorem applyReset_pending : (applyReset s).pending = s.pending := by simp only [applyReset]
@[simp] theorem applyReset_taken : (applyReset s).taken = s.taken := by simp only [applyReset]

end applyReset

@[simp] theorem reset_tran : State.reset.tran = Config.defaultTable := by simp only [State.reset]
@[simp] theorem reset_cnt : State.reset.cnt = 0 := by simp only [State.reset]
@[simp] theorem reset_acc : State.reset.acc = accZero := by simp only [State.reset]
@[simp] theorem reset_win : State.reset.win = winUnset := by simp only [State.reset]
@[simp] theorem reset_dbuf : State.reset.dbuf = dbufZero := by simp only [State.reset]
@[simp] theorem reset_ill : State.reset.ill = false := by simp only [State.reset]
@[simp] theorem reset_ovf : State.reset.ovf = false := by simp only [State.reset]
@[simp] theorem reset_phase : State.reset.phase = .resetInit := by simp only [State.reset]
@[simp] theorem reset_pending : State.reset.pending = [] := by simp only [State.reset]
@[simp] theorem reset_taken : State.reset.taken = [] := by simp only [State.reset]

end Sys2Proof.Machine
end

