-- ==== Sys2Proof/Laws/Arrays.lean ====
section
/-! SUPPORT. Reading an array after writing an entry of it: the entry written reads as the value written, every other entry
as before. -/

namespace Sys2Proof.Machine

@[simp] theorem entry_setEntry_same {α : Type} (arr : Vector α 256) (i : Byte) (v : α) :
    entry (setEntry arr i v) i = v := by
  simp [entry, setEntry]

theorem entry_setEntry_other {α : Type} (arr : Vector α 256) {i j : Byte} (v : α) (h : i ≠ j) :
    entry (setEntry arr i v) j = entry arr j := by
  have : i.toNat ≠ j.toNat := fun e => h (BitVec.eq_of_toNat_eq e)
  simp [entry, setEntry, Vector.getElem_set_ne, this]

theorem entry_setEntry {α : Type} (arr : Vector α 256) (i j : Byte) (v : α) :
    entry (setEntry arr i v) j = if i = j then v else entry arr j := by
  split
  · subst_vars; simp
  · exact entry_setEntry_other arr v ‹_›

/-- Arrays whose entries agree are equal. -/
theorem ext_entry {α : Type} {x y : Vector α 256} (h : ∀ i : Byte, entry x i = entry y i) : x = y := by
  apply Vector.ext
  intro k hk
  simpa [entry, BitVec.toNat_ofNat, Nat.mod_eq_of_lt hk] using h (BitVec.ofNat 8 k)

@[simp] theorem entry_replicate {α : Type} (v : α) (i : Byte) : entry (Vector.replicate 256 v) i = v := by
  simp [entry]

@[simp] theorem entry_accZero (i : Byte) : entry accZero i = 0 := by simp [accZero]

@[simp] theorem winUnset_get {k : Nat} (h : k < 4) : winUnset[k] = ⟨0, false⟩ := by simp [winUnset, WinSlot.unset]

@[simp] theorem dbufZero_get {m : Nat} (h : m < 32) : dbufZero[m] = 0 := by simp [dbufZero]

/-- The counters of a fresh hash state sum to 0. -/
@[simp] theorem accZero_sum : (accZero.toList.map BitVec.toNat).sum = 0 := by
  rw [accZero, Vector.toList_replicate, List.map_replicate, List.sum_replicate]
  rfl

theorem entry_bump (acc : Vector Count 256) (b i : Byte) :
    entry (bump acc b) i = if b = i then entry acc i + 1 else entry acc i := by
  rw [bump, entry_setEntry]
  split
  · subst_vars; rfl
  · rfl

/-- One slot of step 3 of R150 adds 1 to the bucket it selects, and only if its gate is open. -/
theorem entry_trigramStep (T : Vector Byte 256) (ch : Byte) (w : Vector WinSlot 4) (acc : Vector Count 256) (n : Fin 8)
    (i : Byte) :
    entry (trigramStep T ch w acc n) i =
      if gate w n = true ∧ bucketOf T ch w n = i then entry acc i + 1 else entry acc i := by
  unfold trigramStep
  split
  · simp [entry_bump, *]
  · simp [*]

end Sys2Proof.Machine
end

