-- ==== Sys2Proof/Laws/Encoding.lean ====
section
/-! SUPPORT. The fields of a packed word are the bytes it was packed from, and a word is packed from its fields. -/

namespace Sys2Proof

/-- Bit `i` of a packed word is a bit of the byte that covers it (R72). -/
theorem getLsbD_pack (o c b a : Byte) (i : Nat) :
    (pack o c b a).getLsbD i =
      if i < 8 then a.getLsbD i else if i - 8 < 8 then b.getLsbD (i - 8)
      else if i - 8 - 8 < 8 then c.getLsbD (i - 8 - 8) else o.getLsbD (i - 8 - 8 - 8) := by
  simp only [pack, BitVec.getLsbD_append]

@[simp] theorem opc_pack (o c b a : Byte) : opc (pack o c b a) = o := by
  apply BitVec.eq_of_getLsbD_eq
  intro i hi
  simp only [opc, pack, BitVec.getLsbD_extractLsb', BitVec.getLsbD_append]
  simp [hi, show ¬ (24 + i < 8) by omega, show ¬ (24 + i - 8 < 8) by omega, show ¬ (24 + i - 8 - 8 < 8) by omega,
    show 24 + i - 8 - 8 - 8 = i by omega]

@[simp] theorem b2_pack (o c b a : Byte) : b2 (pack o c b a) = c := by
  apply BitVec.eq_of_getLsbD_eq
  intro i hi
  simp only [b2, pack, BitVec.getLsbD_extractLsb', BitVec.getLsbD_append]
  simp [hi, show ¬ (16 + i < 8) by omega, show ¬ (16 + i - 8 < 8) by omega,
    show 16 + i - 8 - 8 = i by omega]

@[simp] theorem b1_pack (o c b a : Byte) : b1 (pack o c b a) = b := by
  apply BitVec.eq_of_getLsbD_eq
  intro i hi
  simp only [b1, pack, BitVec.getLsbD_extractLsb', BitVec.getLsbD_append]
  simp [hi, show ¬ (8 + i < 8) by omega, show 8 + i - 8 = i by omega]

@[simp] theorem b0_pack (o c b a : Byte) : b0 (pack o c b a) = a := by
  apply BitVec.eq_of_getLsbD_eq
  intro i hi
  simp only [b0, pack, BitVec.getLsbD_extractLsb', BitVec.getLsbD_append]
  simp [hi]

/-- Every word is packed from its four fields (R72). -/
theorem pack_fields (w : Word) : pack (opc w) (b2 w) (b1 w) (b0 w) = w := by
  apply BitVec.eq_of_getLsbD_eq
  intro i hi
  simp only [opc, b2, b1, b0, pack, BitVec.getLsbD_extractLsb', BitVec.getLsbD_append]
  by_cases h0 : i < 8
  · simp [h0]
  · by_cases h1 : i < 16
    · simp [h0, show i - 8 < 8 by omega, show 8 + (i - 8) = i by omega]
    · by_cases h2 : i < 24
      · simp [h0, show ¬ i - 8 < 8 by omega, show i - 8 - 8 < 8 by omega, show 16 + (i - 8 - 8) = i by omega]
      · simp [h0, show ¬ i - 8 < 8 by omega, show ¬ i - 8 - 8 < 8 by omega, show i - 8 - 8 - 8 < 8 by omega,
          show 24 + (i - 8 - 8 - 8) = i by omega]

@[simp] theorem lowBit_bitByte (x : Bool) : lowBit (bitByte x) = x := by cases x <;> decide

@[simp] theorem highSeven_bitByte (x : Bool) : highSeven (bitByte x) = 0 := by cases x <;> decide

@[simp] theorem lowThree_octalByte (x : BitVec 3) : lowThree (octalByte x) = x := by revert x; decide

@[simp] theorem highFive_octalByte (x : BitVec 3) : highFive (octalByte x) = 0 := by revert x; decide

/-- A byte whose seven reserved bits are 0 is its low bit. -/
theorem bitByte_lowBit {b : Byte} (h : highSeven b = 0) : bitByte (lowBit b) = b := by revert b; decide

/-- A byte whose five reserved bits are 0 is its low three bits. -/
theorem octalByte_lowThree {b : Byte} (h : highFive b = 0) : octalByte (lowThree b) = b := by revert b; decide

@[simp] theorem ifReservedZero_eq_command {p : Bool} {i j : Instr} :
    ifReservedZero p i = .command j ↔ p = true ∧ i = j := by
  cases p <;> simp [ifReservedZero]

@[simp] theorem ifReservedZero_true (i : Instr) : ifReservedZero true i = .command i := rfl

end Sys2Proof
end

