-- ==== Sys2Proof/Laws/Table.lean ====
section
/-! SUPPORT. What PERM says of a table. -/

namespace Sys2Proof.Machine

theorem distinct_iff (l : List Byte) : distinct l = true ↔ l.Pairwise (· ≠ ·) := by
  induction l with
  | nil => simp [distinct]
  | cons x rest ih => simp [distinct, List.pairwise_cons, ih]

/-- PERM is 1 exactly when the entries differ pairwise (R106). -/
theorem tablePerm_iff (T : Vector Byte 256) : tablePerm T = true ↔ T.toList.Pairwise (· ≠ ·) := distinct_iff _

end Sys2Proof.Machine
end

