-- ==== Sys2Proof/Laws/Ops.lean ====
section
/-! SUPPORT. What the shared operations do: `deliver`, `update`, and in one lemma what any command can do. -/

namespace Sys2Proof.Machine

open Host (Outcome)

/-- A legal response is handed over and the core is idle again (R256). -/
theorem deliver_respond (st : Status) (data : Word) (s : State) (h : st ≠ .reserved) :
    deliver (respond st data s) = .next { s with phase := .idle, taken := s.taken ++ [⟨st, data⟩] } := by
  simp [deliver, respond, h]

theorem deliver_rspPending {s : State} {r : Response} (hp : s.phase = .rspPending r) (hr : r.status ≠ .reserved) :
    deliver s = .next { s with phase := .idle, taken := s.taken ++ [r] } := by
  simp [deliver, hp, hr]

/-- `deliver` changes nothing but the phase and what the host has taken. -/
theorem deliver_next {s t : State} (h : deliver s = .next t) :
    (∃ r, s.phase = .rspPending r ∧ r.status ≠ .reserved ∧ t = { s with phase := .idle, taken := s.taken ++ [r] }) ∨
      ((∀ r, s.phase ≠ .rspPending r) ∧ t = s) := by
  unfold deliver at h
  split at h
  · split at h
    · cases h
    · cases h; exact .inl ⟨_, ‹_›, ‹_›, rfl⟩
  · cases h; exact .inr ⟨fun r hr => by simp_all, rfl⟩

/-- `deliver` faults only on the reserved status. -/
theorem deliver_fault {s : State} {f : Fault} (h : deliver s = .fault f) :
    ∃ r, s.phase = .rspPending r ∧ r.status = .reserved := by
  unfold deliver at h
  split at h
  · split at h
    · exact ⟨_, ‹_›, ‹_›⟩
    · cases h
  · cases h

theorem deliver_not_refused {s : State} {r : Refusal} : deliver s ≠ .refused r := by
  unfold deliver
  split
  · split <;> simp
  · simp

/-- UPDn at or below the count limit absorbs its bytes; above it, it raises Overflow (R153). -/
theorem update_cases (bytes : List Byte) (s : State) :
    (s.cnt.toNat + bytes.length ≤ Config.countMax ∧
      update bytes s = .next (respond .ok (half false (absorbAll s bytes).cnt) (absorbAll s bytes))) ∨
    (Config.countMax < s.cnt.toNat + bytes.length ∧ update bytes s = .next (raiseOverflow s)) := by
  unfold update done
  split
  · exact .inr ⟨by omega, rfl⟩
  · exact .inl ⟨by omega, rfl⟩

theorem absorbAll_pending (s : State) (bytes : List Byte) : (absorbAll s bytes).pending = s.pending := by
  induction bytes generalizing s with
  | nil => rfl
  | cons b rest ih => simpa [absorbAll] using ih (absorb s b)

theorem absorbAll_taken (s : State) (bytes : List Byte) : (absorbAll s bytes).taken = s.taken := by
  induction bytes generalizing s with
  | nil => rfl
  | cons b rest ih => simpa [absorbAll] using ih (absorb s b)

/-! ### What each command answers, as one equation (the definitions of Machine/<Family>.lean, by name) -/

theorem exec_nop (s : State) : exec .nop s = .next (respond .ok 0 s) := rfl

theorem exec_stat (clr : Bool) (s : State) :
    exec (.stat clr) s = .next (respond .ok (statWord s) (if clr then clearIll s else s)) := rfl

theorem exec_gen (seed : Byte) (s : State) : exec (.gen seed) s = .next (respond .ok 0 { s with tran := gen seed }) := rfl

theorem exec_twr (idx val : Byte) (s : State) :
    exec (.twr idx val) s = .next (respond .ok 0 { s with tran := setEntry s.tran idx val }) := rfl

theorem exec_trd (idx : Byte) (s : State) : exec (.trd idx) s = .next (respond .ok (zext (entry s.tran idx)) s) := rfl

theorem exec_tchk (s : State) : exec .tchk s = .next (respond .ok (checkWord s.tran) s) := rfl

theorem exec_dig (s : State) :
    exec .dig s = .next (respond .ok (BitVec.ofNat 32 (threshold s)) { s with dbuf := digest s }) := rfl

theorem exec_drd (ws : BitVec 3) (s : State) : exec (.drd ws) s = .next (respond .ok (dbufWord s.dbuf ws) s) := rfl

theorem exec_ard (idx : Byte) (h : Bool) (s : State) :
    exec (.ard idx h) s = .next (respond .ok (half h (entry s.acc idx)) s) := rfl

theorem exec_crd (h : Bool) (s : State) : exec (.crd h) s = .next (respond .ok (half h s.cnt) s) := rfl

theorem exec_wrd (s : State) : exec .wrd s = .next (respond .ok (winWord s.win) s) := rfl

theorem exec_upd1 (d0 : Byte) (s : State) : exec (.upd1 d0) s = update [d0] s := rfl

theorem exec_upd2 (d0 d1 : Byte) (s : State) : exec (.upd2 d0 d1) s = update [d0, d1] s := rfl

theorem exec_upd3 (d0 d1 d2 : Byte) (s : State) : exec (.upd3 d0 d1 d2) s = update [d0, d1, d2] s := rfl

/-- What any command does, said once: it always completes, ends with its response, leaves the host's side alone, and its
response is OK, or OVERFLOW with data 0 and only `STAT.OVF` changed. -/
theorem exec_responds (i : Instr) (s : State) :
    ∃ st data u, exec i s = .next (respond st data u) ∧ u.pending = s.pending ∧ u.taken = s.taken ∧
      (st = .ok ∨ (st = .overflow ∧ data = 0 ∧ u = setOvf s)) := by
  cases i with
  | upd1 d0 =>
    rcases update_cases [d0] s with ⟨-, h⟩ | ⟨-, h⟩
    · exact ⟨_, _, _, h, absorbAll_pending .., absorbAll_taken .., .inl rfl⟩
    · exact ⟨_, _, _, h, rfl, rfl, .inr ⟨rfl, rfl, rfl⟩⟩
  | upd2 d0 d1 =>
    rcases update_cases [d0, d1] s with ⟨-, h⟩ | ⟨-, h⟩
    · exact ⟨_, _, _, h, absorbAll_pending .., absorbAll_taken .., .inl rfl⟩
    · exact ⟨_, _, _, h, rfl, rfl, .inr ⟨rfl, rfl, rfl⟩⟩
  | upd3 d0 d1 d2 =>
    rcases update_cases [d0, d1, d2] s with ⟨-, h⟩ | ⟨-, h⟩
    · exact ⟨_, _, _, h, absorbAll_pending .., absorbAll_taken .., .inl rfl⟩
    · exact ⟨_, _, _, h, rfl, rfl, .inr ⟨rfl, rfl, rfl⟩⟩
  | stat clr => cases clr <;> exact ⟨_, _, _, rfl, rfl, rfl, .inl rfl⟩
  | _ => exact ⟨_, _, _, rfl, rfl, rfl, .inl rfl⟩

end Sys2Proof.Machine
end

