-- ==== Sys2Proof/Laws/PerInstr.lean ====
section
/-! SUPPORT. The per-instruction family MatchesRow: the word of every command matches the command's row of the match and
mask table (spec/30_encoding.md R75). -/

namespace Sys2Proof.Laws.MatchesRow

/-- The encoded word is the row's pattern under the row's mask. -/
def Statement (i : Instr) : Prop := encode i &&& (matchRow i).mask = (matchRow i).pattern

/-- A mask that covers the opcode byte and nothing else keeps only the opcode. -/
theorem opcode_only (o c b a : Byte) : pack o c b a &&& 0xFF000000 = pack o 0 0 0 := by
  apply BitVec.eq_of_getLsbD_eq
  intro i hi
  interval_cases i <;> simp [-BitVec.getLsbD_eq_getElem, getLsbD_pack]

/-- The mask of formats with one reserved operand byte. -/
theorem two_bytes (o c b a : Byte) : pack o c b a &&& 0xFFFF0000 = pack o c 0 0 := by
  apply BitVec.eq_of_getLsbD_eq
  intro i hi
  interval_cases i <;> simp [-BitVec.getLsbD_eq_getElem, getLsbD_pack]

/-- The mask of formats with two reserved operand bytes. -/
theorem three_bytes (o c b a : Byte) : pack o c b a &&& 0xFFFFFF00 = pack o c b 0 := by
  apply BitVec.eq_of_getLsbD_eq
  intro i hi
  interval_cases i <;> simp [-BitVec.getLsbD_eq_getElem, getLsbD_pack]

theorem nop : Statement .nop := by unfold Statement; decide
theorem init : Statement .init := by unfold Statement; decide
theorem stat (clr : Bool) : Statement (.stat clr) := by unfold Statement; revert clr; decide
theorem gen (seed : Byte) : Statement (.gen seed) := (three_bytes ..).trans (by simp only [matchRow]; decide)
theorem twr (idx val : Byte) : Statement (.twr idx val) := (two_bytes ..).trans (by simp only [matchRow]; decide)
theorem trd (idx : Byte) : Statement (.trd idx) := (three_bytes ..).trans (by simp only [matchRow]; decide)
theorem tchk : Statement .tchk := by unfold Statement; decide
theorem upd1 (d0 : Byte) : Statement (.upd1 d0) := (three_bytes ..).trans (by simp only [matchRow]; decide)
theorem upd2 (d0 d1 : Byte) : Statement (.upd2 d0 d1) := (two_bytes ..).trans (by simp only [matchRow]; decide)
theorem upd3 (d0 d1 d2 : Byte) : Statement (.upd3 d0 d1 d2) := (opcode_only ..).trans (by simp only [matchRow]; decide)
theorem dig : Statement .dig := by unfold Statement; decide
theorem drd (ws : BitVec 3) : Statement (.drd ws) := by unfold Statement; revert ws; decide
theorem ard (idx : Byte) (h : Bool) : Statement (.ard idx h) := by unfold Statement; revert idx h; decide
theorem crd (h : Bool) : Statement (.crd h) := by unfold Statement; revert h; decide
theorem wrd : Statement .wrd := by unfold Statement; decide
theorem mix0 (a b c : Byte) : Statement (.mix0 a b c) := (opcode_only ..).trans (by simp only [matchRow]; decide)
theorem mix1 (a b c : Byte) : Statement (.mix1 a b c) := (opcode_only ..).trans (by simp only [matchRow]; decide)
theorem mix2 (a b c : Byte) : Statement (.mix2 a b c) := (opcode_only ..).trans (by simp only [matchRow]; decide)
theorem mix3 (a b c : Byte) : Statement (.mix3 a b c) := (opcode_only ..).trans (by simp only [matchRow]; decide)
theorem mix4 (a b c : Byte) : Statement (.mix4 a b c) := (opcode_only ..).trans (by simp only [matchRow]; decide)
theorem mix5 (a b c : Byte) : Statement (.mix5 a b c) := (opcode_only ..).trans (by simp only [matchRow]; decide)
theorem mix6 (a b c : Byte) : Statement (.mix6 a b c) := (opcode_only ..).trans (by simp only [matchRow]; decide)
theorem mix7 (a b c : Byte) : Statement (.mix7 a b c) := (opcode_only ..).trans (by simp only [matchRow]; decide)

end Sys2Proof.Laws.MatchesRow
end

