-- ==== Sys2Proof/Laws/Stream.lean ====
section
/-! SUPPORT. Absorbing bytes one after another. -/

namespace Sys2Proof.Machine

@[simp] theorem absorbAll_nil (s : State) : absorbAll s [] = s := rfl

@[simp] theorem absorbAll_cons (s : State) (b : Byte) (rest : List Byte) :
    absorbAll s (b :: rest) = absorbAll (absorb s b) rest := rfl

/-- Absorbing a concatenation is absorbing its parts in order. -/
theorem absorbAll_append (s : State) (xs ys : List Byte) :
    absorbAll s (xs ++ ys) = absorbAll (absorbAll s xs) ys := by
  simp [absorbAll]

@[simp] theorem absorbAll_tran (s : State) (bytes : List Byte) : (absorbAll s bytes).tran = s.tran := by
  induction bytes generalizing s with
  | nil => rfl
  | cons b rest ih => simp [ih]

@[simp] theorem absorbAll_dbuf (s : State) (bytes : List Byte) : (absorbAll s bytes).dbuf = s.dbuf := by
  induction bytes generalizing s with
  | nil => rfl
  | cons b rest ih => simp [ih]

@[simp] theorem absorbAll_ill (s : State) (bytes : List Byte) : (absorbAll s bytes).ill = s.ill := by
  induction bytes generalizing s with
  | nil => rfl
  | cons b rest ih => simp [ih]

@[simp] theorem absorbAll_ovf (s : State) (bytes : List Byte) : (absorbAll s bytes).ovf = s.ovf := by
  induction bytes generalizing s with
  | nil => rfl
  | cons b rest ih => simp [ih]

@[simp] theorem absorbAll_phase (s : State) (bytes : List Byte) : (absorbAll s bytes).phase = s.phase := by
  induction bytes generalizing s with
  | nil => rfl
  | cons b rest ih => simp [ih]

/-- The count goes up by one per byte (as a 64-bit register; below the limit it never wraps, R153). -/
theorem absorbAll_cnt (s : State) (bytes : List Byte) :
    (absorbAll s bytes).cnt = s.cnt + BitVec.ofNat 64 bytes.length := by
  induction bytes generalizing s with
  | nil => simp
  | cons b rest ih =>
    rw [absorbAll_cons, ih]
    simp only [absorb_cnt, List.length_cons, BitVec.ofNat_add, BitVec.add_assoc]
    rw [BitVec.add_comm (1 : Count)]
    rfl

end Sys2Proof.Machine
end

