-- ==== Sys2Proof/Laws/Step.lean ====
section
/-! SUPPORT. What a command word, a transaction and a step do. -/

namespace Sys2Proof.Machine

open Host (Outcome)

theorem execWord_command {w : Word} {i : Instr} (h : decode w = .command i) (s : State) : execWord w s = exec i s := by
  simp [execWord, h]

theorem execWord_illegal {w : Word} {why : IllegalWord} (h : decode w = .illegal why) (s : State) :
    execWord w s = .next (raiseIllegal s) := by
  simp [execWord, h]

/-- What any word does, said once: it always ends with its response, leaves the host's side alone, and the response is OK,
or ILLEGAL or OVERFLOW with data 0 and only the sticky bit changed. -/
theorem execWord_responds (w : Word) (s : State) :
    ∃ st data u, execWord w s = .next (respond st data u) ∧ u.pending = s.pending ∧ u.taken = s.taken ∧
      (st = .ok ∨ (st = .illegal ∧ data = 0 ∧ u = setIll s) ∨ (st = .overflow ∧ data = 0 ∧ u = setOvf s)) := by
  cases h : decode w with
  | illegal why => exact ⟨_, _, _, execWord_illegal h s, rfl, rfl, .inr (.inl ⟨rfl, rfl, rfl⟩)⟩
  | command i =>
    obtain ⟨st, data, u, he, hp, ht, hr⟩ := exec_responds i s
    exact ⟨st, data, u, (execWord_command h s).trans he, hp, ht, hr.imp id .inr⟩

/-- From Busy to Idle: the word's effect, then its response among those taken (R256). -/
theorem finish_next (w : Word) (s : State) :
    ∃ st data u, execWord w s = .next (respond st data u) ∧ st ≠ .reserved ∧ (st = .ok ∨ data = 0) ∧
      u.pending = s.pending ∧ u.taken = s.taken ∧
      finish w s = .next { u with phase := .idle, taken := u.taken ++ [⟨st, data⟩] } := by
  obtain ⟨st, data, u, he, hp, ht, hr⟩ := execWord_responds w s
  have hst : st ≠ .reserved := by rcases hr with rfl | ⟨rfl, -⟩ | ⟨rfl, -⟩ <;> simp
  have hdata : st = .ok ∨ data = 0 := by
    rcases hr with h | ⟨-, h, -⟩ | ⟨-, h, -⟩
    · exact .inl h
    · exact .inr h
    · exact .inr h
  refine ⟨st, data, u, he, hst, hdata, hp, ht, ?_⟩
  simp [finish, he, deliver_respond _ _ _ hst]

theorem step_rst {s : State} {rest : List HostEvent} (h : s.pending = .rst :: rest) :
    step s = .next (applyReset { s with pending := rest }) := by
  simp [step, advance, h]

theorem step_violation {s : State} {v : Violation} {rest : List HostEvent} (h : s.pending = .violation v :: rest) :
    step s = .refused (.protocolViolation v) := by
  simp [step, advance, h]

theorem step_cmd_idle {s : State} {w : Word} {rest : List HostEvent} (hp : s.phase = .idle)
    (h : s.pending = .cmd w :: rest) : step s = transact w { s with pending := rest } := by
  simp [step, advance, h, hp]

theorem step_cmd_waits {s : State} {w : Word} {rest : List HostEvent} (hp : s.phase ≠ .idle)
    (h : s.pending = .cmd w :: rest) : step s = proceed s := by
  simp [step, advance, h, hp]

theorem step_nothing {s : State} (h : s.pending = []) : step s = proceed s := by
  simp [step, advance, h]

/-- What a step that answers a next state can be, said once. -/
theorem step_cases {s t : State} (h : step s = .next t) :
    (∃ rest, s.pending = .rst :: rest ∧ t = applyReset { s with pending := rest }) ∨
    (∃ w rest, s.phase = .idle ∧ s.pending = .cmd w :: rest ∧ transact w { s with pending := rest } = .next t) ∨
    (s.phase = .resetInit ∧ t = enterIdle s) ∨
    (s.phase = .idle ∧ s.pending = [] ∧ t = s) ∨
    (∃ w, s.phase = .busy w ∧ finish w s = .next t) ∨
    (∃ r, s.phase = .rspPending r ∧ deliver s = .next t) := by
  have hproceed : proceed s = .next t → s.phase ≠ .idle ∨ s.pending = [] →
      (s.phase = .resetInit ∧ t = enterIdle s) ∨ (s.phase = .idle ∧ s.pending = [] ∧ t = s) ∨
        (∃ w, s.phase = .busy w ∧ finish w s = .next t) ∨ (∃ r, s.phase = .rspPending r ∧ deliver s = .next t) := by
    intro hp hi
    unfold proceed at hp
    split at hp
    · cases hp; exact .inl ⟨‹_›, rfl⟩
    · cases hp
      rcases hi with hi | hi
      · exact absurd ‹_› hi
      · exact .inr (.inl ⟨‹_›, hi, rfl⟩)
    · exact .inr (.inr (.inl ⟨_, ‹_›, hp⟩))
    · exact .inr (.inr (.inr ⟨_, ‹_›, hp⟩))
  cases hpend : s.pending with
  | nil =>
    rw [step_nothing hpend] at h
    rcases hproceed h (.inr hpend) with h1 | ⟨h1, -, h2⟩ | h1
    · exact .inr (.inr (.inl h1))
    · exact .inr (.inr (.inr (.inl ⟨h1, rfl, h2⟩)))
    · exact .inr (.inr (.inr (.inr h1)))
  | cons e rest =>
    cases e with
    | rst => rw [step_rst hpend] at h; injection h with h; exact .inl ⟨rest, rfl, h.symm⟩
    | violation v => rw [step_violation hpend] at h; cases h
    | cmd w =>
      by_cases hi : s.phase = .idle
      · rw [step_cmd_idle hi hpend] at h
        exact .inr (.inl ⟨w, rest, hi, rfl, h⟩)
      · rw [step_cmd_waits hi hpend] at h
        rcases hproceed h (.inl hi) with h1 | ⟨h1, -⟩ | h1
        · exact .inr (.inr (.inl h1))
        · exact absurd h1 hi
        · exact .inr (.inr (.inr (.inr h1)))

/-- The invariant reads the count, the counters, the window, the phase and what the host has taken, and nothing else. -/
theorem inv_of_same_hash {s t : State} (h : Inv s) (hc : t.cnt = s.cnt) (ha : t.acc = s.acc) (hw : t.win = s.win)
    (hp : phaseLegal t = true) (ht : ∀ r ∈ t.taken, r.legal = true) : Inv t where
  count := hc ▸ h.count
  window k := by have := h.window k; simpa only [slotAgrees, hc, hw] using this
  sum := by have := h.sum; simpa only [accSum, hc, ha] using this
  presented := hp
  received := ht

/-- A property that holds of every start and that every step keeps holds of every reachable state. -/
theorem reachable_induction {P : State → Prop} (start : ∀ acts, P (startWith acts))
    (keep : ∀ s t, P s → step s = .next t → P t) {s : State} (h : Reachable s) : P s := by
  induction h with
  | start acts => exact start acts
  | step _ hs ih => exact keep _ _ ih hs

end Sys2Proof.Machine
end

