-- ==== Sys2Proof/Tests/Slice0.lean ====
section
/-! SUPPORT. The model's own tests: ill-formed terms that the checks refuse, words written out from the spec, one small step
per command with the result that spec/95_test_vectors.md gives, and for every statement with hypotheses a state that meets
them. -/

namespace Sys2Proof.Tests

open Sys2Proof Sys2Proof.Machine Sys2Proof.Spec
open Host (Outcome)

-- One theorem after another: side by side, the kernel evaluations ask for more memory than check.sh allows.
set_option Elab.async false

/-! ### Well-formedness (spec/30_encoding.md R80, R81): one ill-formed term for each check -/

theorem test_wf_byte_refused : (AsmLine.gen 256).wellFormed = false ∧ (AsmLine.gen 255).wellFormed = true := by decide
theorem test_wf_twr_refused : (AsmLine.twr 256 0).wellFormed = false ∧ (AsmLine.twr 0 256).wellFormed = false := by decide
theorem test_wf_trd_refused : (AsmLine.trd 256).wellFormed = false := by decide
theorem test_wf_upd_n_refused : (AsmLine.upd1 256).wellFormed = false ∧ (AsmLine.upd2 0 256).wellFormed = false ∧
    (AsmLine.upd3 0 0 256).wellFormed = false := by decide
theorem test_wf_bit_refused : (AsmLine.stat (some 2)).wellFormed = false ∧ (AsmLine.crd 2).wellFormed = false ∧
    (AsmLine.ard 0 2).wellFormed = false ∧ (AsmLine.ard 256 0).wellFormed = false := by decide
theorem test_wf_octal_refused : (AsmLine.drd 8).wellFormed = false ∧ (AsmLine.mix 8 0 0 0).wellFormed = false := by decide
theorem test_wf_mix_refused : (AsmLine.mix 0 256 0 0).wellFormed = false ∧ (AsmLine.mix 0 0 256 0).wellFormed = false ∧
    (AsmLine.mix 0 0 0 256).wellFormed = false := by decide
theorem test_wf_upd_refused : (AsmLine.upd []).wellFormed = false ∧ (AsmLine.upd [256]).wellFormed = false := by decide
theorem test_wf_newhash_refused : (AsmLine.newhash (some 256)).wellFormed = false := by decide
theorem test_wf_loadtab_refused : (AsmLine.loadtab [0, 1, 2]).wellFormed = false ∧
    (AsmLine.loadtab (List.replicate 256 256)).wellFormed = false ∧
    (AsmLine.loadtab (List.replicate 256 0)).wellFormed = true := by decide +kernel
theorem test_wf_rdacc_refused : (AsmLine.rdacc 256).wellFormed = false := by decide

/-! ### Decoding: words from the table of spec/95_test_vectors.md 2.1 and from the formats of R73 -/

theorem test_decode_control : decode 0x00000000 = .command .nop ∧ decode 0x00000100 = .illegal .reservedBit ∧
    decode 0x02000000 = .command (.stat false) ∧ decode 0x02000001 = .command (.stat true) ∧
    decode 0x02000002 = .illegal .reservedBit ∧ decode 0x1A0001FF = .command (.ard 255 true) ∧
    decode 0x1A0002FF = .illegal .reservedBit ∧ decode 0x1B000100 = .command (.crd true) ∧
    decode 0x1B000101 = .illegal .reservedBit ∧ decode 0x1C000000 = .command .wrd := by decide
theorem test_decode_table : decode 0x08000035 = .command (.gen 53) ∧ decode 0x08000135 = .illegal .reservedBit ∧
    decode 0x09005500 = .command (.twr 0 0x55) ∧ decode 0x09015500 = .illegal .reservedBit ∧
    decode 0x0A0000FF = .command (.trd 255) ∧ decode 0x0B000000 = .command .tchk ∧
    decode 0x0B000001 = .illegal .reservedBit := by decide
theorem test_decode_stream : decode 0x01000000 = .command .init ∧ decode 0x11000061 = .command (.upd1 0x61) ∧
    decode 0x11000161 = .illegal .reservedBit ∧ decode 0x12006261 = .command (.upd2 0x61 0x62) ∧
    decode 0x12016261 = .illegal .reservedBit ∧ decode 0x13636261 = .command (.upd3 0x61 0x62 0x63) := by decide
theorem test_decode_digest : decode 0x18000000 = .command .dig ∧ decode 0x19000007 = .command (.drd 7) ∧
    decode 0x19000008 = .illegal .reservedBit := by decide
theorem test_decode_mixer : decode 0x20616263 = .command (.mix0 0x63 0x62 0x61) ∧
    decode 0x21010203 = .command (.mix1 3 2 1) ∧ decode 0x22010203 = .command (.mix2 3 2 1) ∧
    decode 0x230000FD = .command (.mix3 0xFD 0 0) ∧ decode 0x24010203 = .command (.mix4 3 2 1) ∧
    decode 0x25030201 = .command (.mix5 1 2 3) ∧ decode 0x26010203 = .command (.mix6 3 2 1) ∧
    decode 0x27FFFFFF = .command (.mix7 255 255 255) := by decide
theorem test_decode_unassigned : decode 0x03000000 = .illegal .unassignedOpcode ∧
    decode 0x10000000 = .illegal .unassignedOpcode ∧ decode 0x1D000000 = .illegal .unassignedOpcode ∧
    decode 0x28000000 = .illegal .unassignedOpcode ∧ decode 0xFF000000 = .illegal .unassignedOpcode := by decide
theorem test_decodeTableWord : decodeTableWord 32 0x09005500 = some (.twr 0 0x55) ∧ decodeTableWord 32 0x03000000 = none := by
  decide

/-! ### Assembly text (R80, R81), with the words of spec/95_test_vectors.md 2.4 and 3 -/

/-- `UPD2 'g','h' ; tail` is 0x12006867 (V-A2). -/
theorem test_text_upd2 : assembleText ['U', 'P', 'D', '2', ' ', '\'', 'g', '\'', ',', '\'', 'h', '\'', ' ', ';', 'x'] =
    some [0x12006867] := by decide
/-- `UPD "abcd"` is UPD3 'a','b','c' and UPD1 'd' (R81). -/
theorem test_text_upd : assembleText ['U', 'P', 'D', ' ', '"', 'a', 'b', 'c', 'd', '"'] =
    some [0x13636261, 0x11000064] := by decide
/-- `TWR 0, 0x55` is 0x09005500, and a seed of 256 fails (R80, R103). -/
theorem test_text_operands : assembleText ['T', 'W', 'R', ' ', '0', ',', ' ', '0', 'x', '5', '5'] = some [0x09005500] ∧
    assembleText ['G', 'E', 'N', ' ', '2', '5', '6'] = none := by decide
/-- `NEWHASH 17` is lines 1 and 2 of program P6. -/
theorem test_text_newhash : assembleProgram [['N', 'E', 'W', 'H', 'A', 'S', 'H', ' ', '1', '7'], [], ['S', 'T', 'A', 'T']] =
    some [0x08000011, 0x01000000, 0x02000000] := by decide

/-! ### Helpers -/

/-- The state after reset with the core idle. -/
def fresh : State := { State.reset with phase := .idle }

/-- The text "abcdefgh". -/
def text8 : List Byte := [0x61, 0x62, 0x63, 0x64, 0x65, 0x66, 0x67, 0x68]

/-- A fresh state that has absorbed bytes. -/
def fed (bytes : List Byte) : State := absorbAll fresh bytes

/-- A state at a given count with a full window, as the start state of program P5. -/
def atCount (c : Nat) : State :=
  { fresh with cnt := BitVec.ofNat 64 c, win := #v[⟨0x7a, true⟩, ⟨0x79, true⟩, ⟨0x78, true⟩, ⟨0x77, true⟩] }

/-- The response presented after a command and a check of the state it leaves. -/
def gives (o : Outcome State Fault Refusal) (r : Response) (check : State → Bool) : Bool :=
  match o with
  | .next t => t.phase == .rspPending r && check t
  | .fault _ => false
  | .refused _ => false

/-! ### One step per command, with results from spec/95_test_vectors.md -/

theorem test_nop : gives (exec .nop fresh) ⟨.ok, 0⟩ (fun t => t.cnt == 0 && !t.ill) = true := by decide +kernel

/-- 2.6: `ILL = 1`, 8 bytes absorbed, `STAT 1` gives 0xF1 and clears `ILL`. -/
theorem test_stat_clears : gives (exec (.stat true) { fed text8 with ill := true }) ⟨.ok, 0xF1⟩ (fun t => !t.ill) = true := by
  decide +kernel
/-- 2.6: `OVF = 1`, `WIN` full, `STAT 1` gives 0xF2 and `OVF` stays. -/
theorem test_stat_keeps_ovf : gives (exec (.stat true) { fed text8 with ovf := true }) ⟨.ok, 0xF2⟩ (fun t => t.ovf) = true := by
  decide +kernel

/-- R154: the hash state, `DBUF` and `OVF` are cleared, `TRAN` and `ILL` kept. -/
theorem test_init : gives (exec .init { fed text8 with ovf := true, ill := true }) ⟨.ok, 0⟩
    (fun t => t.cnt == 0 && entry t.acc 0xf6 == 0 && t.win == winUnset && !t.ovf && t.ill && entry t.tran 1 == 0xd6) = true := by
  decide +kernel

/-- V-G1, seed 1: slots 5 to 8 are 7e fe ff 00, so the fold subtracts 255. -/
theorem test_gen_seed_1 : gives (exec (.gen 1) fresh) ⟨.ok, 0⟩
    (fun t => entry t.tran 5 == 0x7e && entry t.tran 6 == 0xfe && entry t.tran 7 == 0xff && entry t.tran 8 == 0x00) = true := by
  decide +kernel
/-- V-G1, seed 17: slots 10 and 13 to 15 are 12 and 01 24 ca. -/
theorem test_gen_seed_17 : gives (exec (.gen 17) fresh) ⟨.ok, 0⟩
    (fun t => entry t.tran 10 == 0x12 && entry t.tran 13 == 0x01 && entry t.tran 14 == 0x24 && entry t.tran 15 == 0xca) =
      true := by
  decide +kernel

/-- V-G4: `TWR 0, 0x55`. -/
theorem test_twr : gives (exec (.twr 0 0x55) fresh) ⟨.ok, 0⟩ (fun t => entry t.tran 0 == 0x55 && entry t.tran 1 == 0xd6) = true := by
  decide +kernel
/-- V-G4: `TRD 255` gives 0x4E. -/
theorem test_trd : gives (exec (.trd 255) fresh) ⟨.ok, 0x4E⟩ (fun _ => true) = true := by decide +kernel
/-- V-G4: TCHK after reset gives 0x100. -/
theorem test_tchk_reset : gives (exec .tchk fresh) ⟨.ok, 0x100⟩ (fun _ => true) = true := by decide +kernel
/-- 2.2: `TWR 1, 0x02` then `TWR 2, 0xd6 ^ 0x9e ^ 0x02` keeps the XOR at 0, and the table is no permutation. -/
theorem test_tchk : gives (exec .tchk { fresh with tran := setEntry (setEntry fresh.tran 1 0x02) 2 0x4a }) ⟨.ok, 0⟩
    (fun _ => true) = true := by decide +kernel

/-- V-A1, byte 'c': the count is 3 and bucket f6 gains one. -/
theorem test_upd1 : gives (exec (.upd1 0x63) (fed [0x61, 0x62])) ⟨.ok, 3⟩
    (fun t => entry t.acc 0xf6 == 1 && accSum t == 1) = true := by decide +kernel
/-- V-A3: at `COUNT_MAX` UPD1 overflows. -/
theorem test_upd1_limit : gives (exec (.upd1 0x61) (atCount (2 ^ 61 - 1))) ⟨.overflow, 0⟩
    (fun t => t.ovf && t.cnt == BitVec.ofNat 64 (2 ^ 61 - 1)) = true := by decide +kernel
/-- V-A1, bytes 'c' and 'd': bucket f6, then buckets 33, fa and 74. -/
theorem test_upd2 : gives (exec (.upd2 0x63 0x64) (fed [0x61, 0x62])) ⟨.ok, 4⟩
    (fun t => entry t.acc 0xf6 == 1 && entry t.acc 0x33 == 1 && entry t.acc 0xfa == 1 && entry t.acc 0x74 == 1) = true := by
  decide +kernel
/-- P5, line 1: UPD2 one below the limit overflows and absorbs nothing. -/
theorem test_upd2_limit : gives (exec (.upd2 0x61 0x62) (atCount (2 ^ 61 - 2))) ⟨.overflow, 0⟩
    (fun t => t.ovf && t.win == (atCount 0).win) = true := by decide +kernel
/-- V-A3: UPD3 of three bytes 0xff selects bucket 0x58. -/
theorem test_upd3 : gives (exec (.upd3 0xff 0xff 0xff) fresh) ⟨.ok, 3⟩
    (fun t => entry t.acc 0x58 == 1 && accSum t == 1) = true := by decide +kernel

/-- V-D3: the digest of "abcd", by its first, fifth and seventh word. -/
theorem test_dig : gives (exec .dig (fed [0x61, 0x62, 0x63, 0x64])) ⟨.ok, 0⟩
    (fun t => dbufWord t.dbuf 0 == 0x04400000 && dbufWord t.dbuf 4 == 0x00100000 && dbufWord t.dbuf 6 == 0x00080000) = true := by
  decide +kernel

/-- P5, line 8: at the count limit the data is the low half of the threshold. -/
theorem test_dig_limit : gives (exec .dig (atCount (2 ^ 61 - 1))) ⟨.ok, 0xFFFFFFFF⟩ (fun _ => true) = true := by decide +kernel
/-- V-D4: `DRD 0` of the "abc" snapshot gives 0x00400000. -/
theorem test_drd : gives (exec (.drd 0) { fresh with dbuf := digest (fed [0x61, 0x62, 0x63]) }) ⟨.ok, 0x00400000⟩
    (fun _ => true) = true := by decide +kernel

/-- V-A1: bucket f6 holds 1 after "abc". -/
theorem test_ard : gives (exec (.ard 0xf6 false) (fed [0x61, 0x62, 0x63])) ⟨.ok, 1⟩ (fun _ => true) = true := by decide +kernel
/-- 2.6: `CRD 1` at the count limit gives 0x1FFFFFFF. -/
theorem test_crd : gives (exec (.crd true) (atCount (2 ^ 61 - 1))) ⟨.ok, 0x1FFFFFFF⟩ (fun _ => true) = true := by decide +kernel
/-- V-A1: WRD after "abcdefgh" gives 0x65666768. -/
theorem test_wrd : gives (exec .wrd (fed text8)) ⟨.ok, 0x65666768⟩ (fun _ => true) = true := by decide +kernel

/-- V-M1, (0x63, 0x62, 0x61). -/
theorem test_mix0 : gives (exec (.mix0 0x63 0x62 0x61) fresh) ⟨.ok, 0xf6⟩ (fun t => t.cnt == 0) = true := by decide +kernel
theorem test_mix1 : gives (exec (.mix1 0x63 0x62 0x61) fresh) ⟨.ok, 0xc1⟩ (fun t => t.cnt == 0) = true := by decide +kernel
theorem test_mix2 : gives (exec (.mix2 0x63 0x62 0x61) fresh) ⟨.ok, 0x5f⟩ (fun t => t.cnt == 0) = true := by decide +kernel
/-- 2.3: `MIX3 0xfd, 0, 0` gives 0x08 (the index wraps). -/
theorem test_mix3 : gives (exec (.mix3 0xfd 0 0) fresh) ⟨.ok, 0x08⟩ (fun t => t.cnt == 0) = true := by decide +kernel
theorem test_mix4 : gives (exec (.mix4 0x63 0x62 0x61) fresh) ⟨.ok, 0x29⟩ (fun t => t.cnt == 0) = true := by decide +kernel
theorem test_mix5 : gives (exec (.mix5 0x63 0x62 0x61) fresh) ⟨.ok, 0xd0⟩ (fun t => t.cnt == 0) = true := by decide +kernel
theorem test_mix6 : gives (exec (.mix6 0x63 0x62 0x61) fresh) ⟨.ok, 0xf2⟩ (fun t => t.cnt == 0) = true := by decide +kernel
theorem test_mix7 : gives (exec (.mix7 0x63 0x62 0x61) fresh) ⟨.ok, 0x0c⟩ (fun t => t.cnt == 0) = true := by decide +kernel

/-- V-A3: the reserved bit of a word is found before the count limit (R223). -/
theorem test_illegal_before_overflow : gives (execWord 0x11000161 (atCount (2 ^ 61 - 1))) ⟨.illegal, 0⟩
    (fun t => t.ill && !t.ovf) = true := by decide +kernel

/-- The step after `withFetchWord` runs the word and takes its response. -/
theorem test_step_first_word :
    (match step (State.reset.withFetchWord 32 0x11000061) with
      | .next t => t.phase == .idle && t.cnt == 1 && t.taken == [⟨.ok, 1⟩]
      | .fault _ => false
      | .refused _ => false) = true := by decide +kernel

/-- R251: a reset discards a waiting response. -/
theorem test_reset_discards :
    (match step { fed text8 with phase := .rspPending ⟨.ok, 8⟩, pending := [.rst] } with
      | .next t => t.phase == .resetInit && t.cnt == 0 && t.win == winUnset && t.taken == [] && t.pending == []
      | .fault _ => false
      | .refused _ => false) = true := by decide +kernel

/-! ### Witnesses: for every statement with hypotheses, states and operands that meet them -/

/-- A run from reset, or reset itself if the run stops. -/
def reached (acts : List HostEvent) (k : Nat) : State :=
  match Host.Core.run Sys2Proof.core k (startWith acts) with
  | .next t => t
  | .fault _ => startWith []
  | .refused _ => startWith []

theorem run_reachable (k : Nat) (s t : State) (hs : Reachable s) (h : Host.Core.run Sys2Proof.core k s = .next t) :
    Reachable t := by
  induction k generalizing s with
  | zero => cases h; exact hs
  | succ k ih =>
    simp only [Host.Core.run] at h
    split at h
    · exact ih _ (.step hs ‹_›) h
    · cases h
    · cases h

theorem reached_reachable (acts : List HostEvent) (k : Nat) : Reachable (reached acts k) := by
  unfold reached
  split
  · exact run_reachable k _ _ (.start acts) ‹_›
  · exact .start []
  · exact .start []

/-- After reset and `n` commands UPD1 'a'. -/
def reachedCount (n : Nat) : State := reached (List.replicate n (.cmd 0x11000061)) (n + 1)

/-- An idle core after reset that offers no command and will see the given acts. -/
def facing (acts : List HostEvent) : State := { fresh with pending := acts }

theorem fresh_inv (s : State) (hc : s.cnt = 0) (ha : s.acc = accZero) (hw : s.win = winUnset) (hp : phaseLegal s = true)
    (ht : s.taken = []) : Inv s where
  count := by simp [hc]
  window k := by simp [slotAgrees, hc, hw]
  sum := by simp [accSum, hc, ha, total]
  presented := hp
  received := by simp [ht]

theorem facing_inv (acts : List HostEvent) : Inv (facing acts) := fresh_inv _ rfl rfl rfl rfl rfl

/-- A state with one byte absorbed, facing the given acts; it meets the invariant. -/
def fedOne (acts : List HostEvent) : State := { fed [0x61] with pending := acts }

theorem fed_inv : Inv (fed [0x61]) where
  count := by decide +kernel
  window := by decide +kernel
  sum := by decide +kernel
  presented := rfl
  received := by simp [fed, absorbAll, absorb, fresh]

theorem fedOne_inv (acts : List HostEvent) : Inv (fedOne acts) :=
  inv_of_same_hash fed_inv rfl rfl rfl rfl fed_inv.received

/-- The ports' record of an idle core. -/
def ports (s : State) (left : Nat) (offer : Option Word) : Clocked := { core := s, left := left, cycle := 0, offer := offer }

theorem witness_EncodeOfDecode : decode 0x08000035 = .command (.gen 53) := by decide

theorem witness_UpdPseudo : ([0x61, 0x62, 0x63, 255] : List Nat) ≠ [] ∧ ∀ b ∈ ([0x61, 0x62, 0x63, 255] : List Nat), b < 256 := by
  decide

theorem witness_ResetEdge : resetting.rst = true ∧ violationAt (ports fresh 0 none) resetting = none := by decide +kernel

theorem witness_ResetStep : ({ fed text8 with phase := .busy 0x18000000, pending := [.rst] } : State).pending = .rst :: [] := rfl

theorem witness_GenFollowsTheLoop : 0 < 256 ∧ 255 < 256 := by decide

theorem witness_GenReadingsAgree : 255 < 256 ∧ ([2, 6] : List Nat).length < 256 := by decide

theorem witness_PermutationXorsToZero : ∀ i k : Fin 256, i < k →
    (Vector.ofFn fun i : Fin 256 => BitVec.ofNat 8 i.val)[i] ≠ (Vector.ofFn fun i : Fin 256 => BitVec.ofNat 8 i.val)[k] := by
  intro i k hik h
  have h2 := congrArg BitVec.toNat h
  simp at h2
  omega

theorem witness_TchkAfterGen : ∃ t, exec (.gen 53) fresh = .next t := ⟨_, exec_gen 53 fresh⟩

/-- Each clause at the largest count that is accepted. -/
theorem witness_UpdateResults : (atCount (2 ^ 61 - 2)).cnt.toNat + 1 ≤ 2 ^ 61 - 1 ∧
    (atCount (2 ^ 61 - 3)).cnt.toNat + 2 ≤ 2 ^ 61 - 1 ∧ (atCount (2 ^ 61 - 4)).cnt.toNat + 3 ≤ 2 ^ 61 - 1 := by
  decide +kernel

/-- Both clauses next to the limit. -/
theorem witness_CountLimitRefusesWhole : inputBytes (.upd2 0x61 0x62) ≠ [] ∧
    (atCount (2 ^ 61 - 3)).cnt.toNat + (inputBytes (.upd2 0x61 0x62)).length ≤ 2 ^ 61 - 1 ∧
    2 ^ 61 - 1 < (atCount (2 ^ 61 - 2)).cnt.toNat + (inputBytes (.upd2 0x61 0x62)).length := by
  decide +kernel

/-- A reachable state at each count at which the number of new trigrams changes: 1, 2, 3 and 4. -/
theorem witness_TrigramCountLaw :
    (Reachable (reachedCount 1) ∧ (reachedCount 1).cnt.toNat = 1) ∧
    (Reachable (reachedCount 2) ∧ (reachedCount 2).cnt.toNat = 2) ∧
    (Reachable (reachedCount 3) ∧ (reachedCount 3).cnt.toNat = 3) ∧
    (Reachable (reachedCount 4) ∧ (reachedCount 4).cnt.toNat = 4 ∧ (reachedCount 4).cnt.toNat < 2 ^ 61 - 1) :=
  ⟨⟨reached_reachable _ _, by decide +kernel⟩, ⟨reached_reachable _ _, by decide +kernel⟩,
    ⟨reached_reachable _ _, by decide +kernel⟩, ⟨reached_reachable _ _, by decide +kernel, by decide +kernel⟩⟩

/-- The last byte reaches the count limit exactly. -/
theorem witness_StreamingEquivalence :
    (∀ i ∈ ([.upd3 1 2 3, .dig, .upd1 4] : List Instr), keepsStream i = true) ∧
    (∀ i ∈ ([.upd2 1 2, .stat true, .upd2 3 4] : List Instr), keepsStream i = true) ∧
    ([.upd3 1 2 3, .dig, .upd1 4] : List Instr).flatMap inputBytes =
      ([.upd2 1 2, .stat true, .upd2 3 4] : List Instr).flatMap inputBytes ∧
    (atCount (2 ^ 61 - 5)).cnt.toNat + (([.upd3 1 2 3, .dig, .upd1 4] : List Instr).flatMap inputBytes).length ≤ 2 ^ 61 - 1 := by
  decide +kernel

theorem witness_WindowHoldsTheLastBytes : Reachable (reachedCount 4) ∧ (reachedCount 4).cnt.toNat ≥ 4 ∧
    (3 : Fin 4).val < ([1, 2, 3, 4] : List Byte).length :=
  ⟨reached_reachable _ _, by decide +kernel, by decide⟩

theorem witness_CountFalls : ∃ t, Inv (fedOne [.cmd 0x01000000]) ∧ step (fedOne [.cmd 0x01000000]) = .next t ∧
    t.cnt.toNat < (fedOne [.cmd 0x01000000]).cnt.toNat :=
  ⟨_, fedOne_inv _, rfl, by decide +kernel⟩

theorem witness_CountFalls_reset : ∃ t, Inv (fedOne [.rst]) ∧ step (fedOne [.rst]) = .next t ∧
    t.cnt.toNat < (fedOne [.rst]).cnt.toNat :=
  ⟨_, fedOne_inv _, step_rst rfl, by decide +kernel⟩

theorem witness_TotalFormula : 2 < 3 ∧ 5 > 4 ∧ 2 ^ 61 - 1 ≤ 2 ^ 61 - 1 ∧ Reachable (startWith []) :=
  ⟨by decide, by decide, Nat.le_refl _, .start []⟩

theorem witness_ThresholdValue : (atCount 35).cnt.toNat ≤ 35 ∧ (atCount 36).cnt.toNat = 36 := by decide +kernel

theorem witness_DigestOfShortInputs : Inv (fedOne []) ∧ (fedOne []).cnt.toNat ≤ 2 ∧ (fedOne []).cnt.toNat < 36 :=
  ⟨fedOne_inv _, by decide +kernel, by decide +kernel⟩

theorem run_two (i j : Instr) (t : State) : ∃ u, runCommands [i, j] t = .next u := by
  obtain ⟨st, d, u, -, -, -, -, -, h⟩ := finish_next (encode i) (accept (encode i) t)
  obtain ⟨st', d', u', -, -, -, -, -, h'⟩ := finish_next (encode j) (accept (encode j)
    { u with phase := .idle, taken := u.taken ++ [⟨st, d⟩] })
  exact ⟨_, by simp only [runCommands, transact, h, h']; rfl⟩

theorem witness_Snapshot : (∀ i ∈ ([.upd1 0x61, .nop] : List Instr), i ≠ .dig ∧ i ≠ .init) ∧
    (∃ t u, exec .dig fresh = .next t ∧ runCommands [.upd1 0x61, .nop] t = .next u) ∧
    (∃ t u, exec .init fresh = .next t ∧ runCommands [.upd1 0x61, .nop] t = .next u) :=
  ⟨by decide, ⟨_, (run_two _ _ _).choose, exec_dig fresh, (run_two _ _ _).choose_spec⟩,
    ⟨_, (run_two _ _ _).choose, rfl, (run_two _ _ _).choose_spec⟩⟩

theorem witness_IllegalWord : ∀ i : Instr, encode i ≠ 0x11000161 := by
  intro i h
  have h1 := (congrArg opc h).trans (show opc 0x11000161 = 0x11 by decide)
  have h2 := (congrArg b1 h).trans (show b1 0x11000161 = 0x01 by decide)
  cases i <;> simp [encode] at h1 h2

theorem witness_IllIsSticky : ∃ t, step { facing [.cmd 0x00000000] with ill := true } = .next t ∧
    ({ facing [.cmd 0x00000000] with ill := true } : State).ill = true := by
  obtain ⟨st, d, u, -, -, -, -, -, h⟩ := finish_next 0x00000000 (accept 0x00000000 { facing [] with ill := true })
  exact ⟨_, (step_cmd_idle rfl rfl).trans h, rfl⟩

theorem witness_OvfIsSticky : ∃ t, step { facing [.cmd 0x02000001] with ovf := true } = .next t ∧
    ({ facing [.cmd 0x02000001] with ovf := true } : State).ovf = true := by
  obtain ⟨st, d, u, -, -, -, -, -, h⟩ := finish_next 0x02000001 (accept 0x02000001 { facing [] with ovf := true })
  exact ⟨_, (step_cmd_idle rfl rfl).trans h, rfl⟩

/-- Each of the five elements does change under one of its writers. -/
theorem witness_Writers :
    (∃ t, exec (.twr 0 0x55) fresh = .next t ∧ t.tran ≠ fresh.tran) ∧
    (∃ t, exec .init (atCount 5) = .next t ∧ t.cnt ≠ (atCount 5).cnt) ∧
    (∃ t, exec .init { fresh with dbuf := Vector.replicate 32 1 } = .next t ∧ t.dbuf ≠ Vector.replicate 32 1) ∧
    (∃ t, exec (.stat true) { fresh with ill := true } = .next t ∧ t.ill ≠ true) ∧
    (∃ t, exec .init { fresh with ovf := true } = .next t ∧ t.ovf ≠ true) :=
  ⟨⟨_, exec_twr 0 0x55 fresh, fun h => absurd (congrArg (entry · 0) h) (by decide +kernel)⟩,
    ⟨_, rfl, by decide +kernel⟩, ⟨_, rfl, by decide +kernel⟩, ⟨_, exec_stat true _, by simp [clearIll, respond]⟩,
    ⟨_, rfl, by simp [respond]⟩⟩

theorem witness_Idempotent : ∃ t, (∀ i, decode 0x18000000 = .command i → inputBytes i = [] ∧ i ≠ .stat true) ∧
    execWord 0x18000000 fresh = .next t := by
  have hd : decode 0x18000000 = .command .dig := by decide
  refine ⟨_, fun i hi => ?_, (execWord_command hd fresh).trans (exec_dig fresh)⟩
  rw [hd] at hi
  cases hi
  exact ⟨rfl, by decide⟩

theorem witness_StepRuns :
    ((facing [.cmd 0x08000035]).phase = .idle ∧ (facing [.cmd 0x08000035]).pending = .cmd 0x08000035 :: [] ∧
      decode 0x08000035 = .command (.gen 53)) ∧
    ((facing [.cmd 0x03000000]).phase = .idle ∧ (facing [.cmd 0x03000000]).pending = .cmd 0x03000000 :: [] ∧
      decode 0x03000000 = .illegal .unassignedOpcode) :=
  ⟨⟨rfl, rfl, by decide⟩, rfl, rfl, by decide⟩

theorem witness_OneResponse : (facing [.cmd 0x08000035, .cmd 0x03000000]).phase = .idle ∧
    (facing [.cmd 0x08000035, .cmd 0x03000000]).pending = [0x08000035, 0x03000000].map .cmd := ⟨rfl, rfl⟩

theorem witness_EveryStep : ∃ t, Inv (facing [.rst]) ∧ step (facing [.rst]) = .next t := ⟨_, facing_inv _, step_rst rfl⟩

theorem witness_OnlyProtocolViolationsStop : Inv (facing [.violation .commandUnstable]) ∧
    ({ fresh with phase := .rspPending ⟨.reserved, 0⟩ } : State).phase = .rspPending ⟨.reserved, 0⟩ ∧
    ({ fresh with phase := .rspPending ⟨.reserved, 0⟩ } : State).pending = [] := ⟨facing_inv _, rfl, rfl⟩

theorem witness_ReadyExactlyWhenIdle : (ports { fresh with phase := .busy 0 } 3 none).core.phase = .busy 0 ∧
    (ports { fresh with phase := .rspPending ⟨.ok, 0⟩ } 0 none).core.phase = .rspPending ⟨.ok, 0⟩ ∧
    ∃ c', edge (ports fresh 0 none) (offering 7) = .next c' ∧ c'.core.phase = .busy 7 := ⟨rfl, rfl, _, rfl, rfl⟩

/-- The word was offered before, and is transferred now. -/
theorem witness_CommandTransfer : violationAt (ports fresh 0 (some 7)) (offering 7) = none ∧ (offering 7).rst = false ∧
    (outputs (ports fresh 0 (some 7)) false).cmdReady = true ∧ (offering 7).cmdValid = true := by
  refine ⟨by decide +kernel, rfl, ?_, rfl⟩
  simp [outputs, ports, fresh, cmdReady, settled]

/-- The transfer in the first ready cycle after reset, with no reset cycle left to wait for. -/
theorem witness_CommandTransfer_reset : violationAt (ports State.reset 0 none) (offering 7) = none ∧
    (outputs (ports State.reset 0 none) false).cmdReady = true := by
  refine ⟨by decide +kernel, ?_⟩
  simp [outputs, ports, State.reset, cmdReady, settled, enterIdle]

/-- Each of the four clauses. -/
theorem witness_ResponseHeld :
    (violationAt (ports { fresh with phase := .busy 0 } 1 none) quiet = none ∧ quiet.rst = false ∧
      (ports { fresh with phase := .busy 0 } 1 none).left = 0 + 1) ∧
    (violationAt (ports { fresh with phase := .busy 0 } 0 none) quiet = none ∧ quiet.rst = false ∧
      (ports { fresh with phase := .busy 0 } 0 none).left = 0) ∧
    (violationAt (ports { fresh with phase := .rspPending ⟨.ok, 5⟩ } 0 none) quiet = none ∧ quiet.rspReady = false) ∧
    (violationAt (ports { fresh with phase := .rspPending ⟨.ok, 5⟩ } 0 none) taking = none ∧ taking.rspReady = true ∧
      (⟨.ok, 5⟩ : Response).status ≠ .reserved) :=
  ⟨⟨rfl, rfl, rfl⟩, ⟨rfl, rfl, rfl⟩, ⟨rfl, rfl⟩, ⟨rfl, rfl, by decide⟩⟩

theorem witness_CommandsAreAtomic : ∃ c', edge (ports { fresh with phase := .busy 0 } 2 none) quiet = .next c' := ⟨_, rfl⟩

/-- A glitch of `rst`; and a word offered while the core is busy that is dropped, or changed, one edge later. -/
theorem witness_ProtocolViolations : ({ quiet with rstGlitch := true } : PortsIn).rstGlitch = true ∧
    (∃ c', edge (ports { fresh with phase := .busy 0 } 2 none) (offering 7) = .next c') ∧ (offering 7).cmdValid = true ∧
    ¬ ((offering 7).rst = false ∧ (outputs (ports { fresh with phase := .busy 0 } 2 none) false).cmdReady = true) ∧
    quiet.rstGlitch = false ∧ quiet.cmdValid = false ∧ (offering 8).cmdData ≠ (offering 7).cmdData := by
  refine ⟨rfl, ⟨_, rfl⟩, rfl, ?_, rfl, rfl, by decide⟩
  simp [outputs, ports, cmdReady, settled]

theorem witness_ReadyAfterReset : violationAt (ports fresh 0 none) resetting = none ∧ resetting.rst = true ∧
    resetting.cmdValid = false := ⟨rfl, rfl, rfl⟩

theorem witness_PortsRefine : fresh.phase = .idle := rfl

end Sys2Proof.Tests
end

section
/-! PROOFS. What one rising edge does, one lemma per case of the channel (R251 to R256). -/

namespace Sys2Proof.Machine

section edge
variable {c : Clocked} {p : PortsIn}

theorem violationAt_none_of_no_offer (hg : p.rstGlitch = false) (ho : c.offer = none) : violationAt c p = none := by
  simp [violationAt, hg, ho]

/-- With no word offered before, an edge at which the host does nothing breaks no protocol. -/
theorem violationAt_quiet (ho : c.offer = none) : violationAt c quiet = none := violationAt_none_of_no_offer rfl ho

/-- Only the end of `ResetInit` makes the phase in force differ from the core's own (R252). -/
theorem settled_of_not_resetInit (h : c.core.phase ≠ .resetInit) : settled c = c.core := if_neg fun h' => h h'.1

theorem edge_eq_runEdge (hv : violationAt c p = none) (hr : p.rst = false) : edge c p = runEdge c p := by
  simp [edge, hv, hr]

/-- A ready core takes the word that is offered (R254). -/
theorem edge_transfers (hv : violationAt c p = none) (hr : p.rst = false) (hi : (settled c).phase = .idle)
    (hc : p.cmdValid = true) :
    edge c p = .next { core := accept p.cmdData (settled c), left := Config.lat c.cycle p.cmdData (settled c),
                       cycle := c.cycle + 1, offer := none } := by
  simp [edge_eq_runEdge hv hr, runEdge, hi, hc]

/-- A Busy command with edges of its latency left only counts them down (R261, R64). -/
theorem edge_busy_waits {w : Word} {n : Nat} (hv : violationAt c p = none) (hr : p.rst = false)
    (hb : c.core.phase = .busy w) (hl : c.left = n + 1) : edge c p = .next (afterEdge c p c.core n) := by
  have hs : settled c = c.core := settled_of_not_resetInit (by simp [hb])
  simp [edge_eq_runEdge hv hr, runEdge, hs, hb, hl]

/-- A Busy command with no edge left completes with its whole effect (R64). -/
theorem edge_busy_completes {w : Word} {t : State} (hv : violationAt c p = none) (hr : p.rst = false)
    (hb : c.core.phase = .busy w) (hl : c.left = 0) (he : execWord w c.core = .next t) :
    edge c p = .next (afterEdge c p t 0) := by
  have hs : settled c = c.core := settled_of_not_resetInit (by simp [hb])
  simp [edge_eq_runEdge hv hr, runEdge, hs, hb, hl, he]

/-- The response is held while the host is not ready (R256). -/
theorem edge_response_held {r : Response} (hv : violationAt c p = none) (hr : p.rst = false)
    (hp : c.core.phase = .rspPending r) (hn : p.rspReady = false) : edge c p = .next (afterEdge c p c.core 0) := by
  have hs : settled c = c.core := settled_of_not_resetInit (by simp [hp])
  simp [edge_eq_runEdge hv hr, runEdge, hs, hp, hn]

/-- A ready host takes the response, and the core is idle (R256). -/
theorem edge_response_taken {r : Response} {t : State} (hv : violationAt c p = none) (hr : p.rst = false)
    (hp : c.core.phase = .rspPending r) (hy : p.rspReady = true) (hd : deliver c.core = .next t) :
    edge c p = .next (afterEdge c p t 0) := by
  have hs : settled c = c.core := settled_of_not_resetInit (by simp [hp])
  simp [edge_eq_runEdge hv hr, runEdge, hs, hp, hy, hd]

end edge

end Sys2Proof.Machine
end

section
/-! PROOFS. Runs of edges: how they compose, and what the quiet ones leave. -/

namespace Sys2Proof.Machine

@[simp] theorem edges_nil (c : Clocked) : edges c [] = .next c := rfl

theorem edges_cons_of_next {c c' : Clocked} {p : PortsIn} (h : edge c p = .next c') (rest : List PortsIn) :
    edges c (p :: rest) = edges c' rest := by
  simp [edges, h]

theorem edges_append_of_next {c c' : Clocked} {ps : List PortsIn} (h : edges c ps = .next c') (qs : List PortsIn) :
    edges c (ps ++ qs) = edges c' qs := by
  induction ps generalizing c with
  | nil => cases h; rfl
  | cons p ps ih =>
    cases he : edge c p with
    | next d =>
      rw [edges_cons_of_next he] at h
      rw [List.cons_append, edges_cons_of_next he, ih h]
    | fault r => simp [edges, he] at h
    | refused r => simp [edges, he] at h

/-- Quiet edges, as many as the latency has left, bring a Busy command to the edge that completes it. -/
theorem edges_busy_quiet {w : Word} (n : Nat) {c : Clocked} (hb : c.core.phase = .busy w) (hl : c.left = n)
    (ho : c.offer = none) :
    ∃ c', edges c (List.replicate n quiet) = .next c' ∧ c'.core = c.core ∧ c'.left = 0 ∧ c'.offer = none := by
  induction n generalizing c with
  | zero => exact ⟨c, rfl, rfl, hl, ho⟩
  | succ n ih =>
    rw [List.replicate_succ, edges_cons_of_next (edge_busy_waits (violationAt_quiet ho) rfl hb hl)]
    exact ih (c := afterEdge c quiet c.core n) hb rfl rfl

/-- Any number of quiet edges leaves a response that is presented as it is (R256). -/
theorem edges_response_held {r : Response} (n : Nat) {c : Clocked} (hp : c.core.phase = .rspPending r)
    (ho : c.offer = none) :
    ∃ c', edges c (List.replicate n quiet) = .next c' ∧ c'.core = c.core ∧ c'.offer = none := by
  induction n generalizing c with
  | zero => exact ⟨c, rfl, rfl, ho⟩
  | succ n ih =>
    rw [List.replicate_succ, edges_cons_of_next (edge_response_held (violationAt_quiet ho) rfl hp rfl)]
    exact ih (c := afterEdge c quiet c.core 0) hp rfl

/-- A Busy command's latency, its completion, any wait and the taking leave what `finish` leaves. -/
theorem edges_finish {c : Clocked} {w : Word} (wait : Nat) (hb : c.core.phase = .busy w) (ho : c.offer = none) :
    ∃ c' t, edges c (List.replicate (c.left + 1 + wait) quiet ++ [taking]) = .next c' ∧
      finish w c.core = .next t ∧ c'.core = t ∧ c'.offer = none := by
  obtain ⟨st, data, u, he, hst, -, -, -, hfin⟩ := finish_next w c.core
  obtain ⟨c₁, hrun₁, hcore₁, hleft₁, hoffer₁⟩ := edges_busy_quiet c.left hb rfl ho
  have hcomplete : edge c₁ quiet = .next (afterEdge c₁ quiet (respond st data u) 0) :=
    edge_busy_completes (violationAt_quiet hoffer₁) rfl (hcore₁ ▸ hb) hleft₁ (hcore₁ ▸ he)
  obtain ⟨c₂, hrun₂, hcore₂, hoffer₂⟩ :=
    edges_response_held wait (c := afterEdge c₁ quiet (respond st data u) 0) rfl rfl
  have hdeliver : deliver c₂.core = .next { u with phase := .idle, taken := u.taken ++ [⟨st, data⟩] } := by
    rw [hcore₂]; exact deliver_respond st data u hst
  have htake : edge c₂ taking = .next (afterEdge c₂ taking _ 0) :=
    edge_response_taken (violationAt_none_of_no_offer rfl hoffer₂) rfl (congrArg State.phase hcore₂) rfl hdeliver
  refine ⟨afterEdge c₂ taking _ 0, _, ?_, hfin, rfl, rfl⟩
  calc edges c (List.replicate (c.left + 1 + wait) quiet ++ [taking])
      = edges c (List.replicate c.left quiet ++ quiet :: (List.replicate wait quiet ++ [taking])) := by
        simp [Nat.add_assoc, Nat.add_comm 1 wait, List.replicate_add, List.replicate_succ]
    _ = edges c₁ (quiet :: (List.replicate wait quiet ++ [taking])) := edges_append_of_next hrun₁ _
    _ = edges (afterEdge c₁ quiet (respond st data u) 0) (List.replicate wait quiet ++ [taking]) :=
        edges_cons_of_next hcomplete _
    _ = edges c₂ [taking] := edges_append_of_next hrun₂ _
    _ = .next _ := edges_cons_of_next htake []

end Sys2Proof.Machine
end

section
namespace Sys2Proof.Proofs

open Sys2Proof.Machine

/-- Settles O60: the transfer is `accept`, the edges after it are `finish`, and a step from Idle is the two together. -/
theorem portsRefineTheStep : Obligations.PortsRefineTheStep := by
  intro s w left cycle wait hidle
  have htransfer : edge { core := s, left := left, cycle := cycle, offer := none } (offering w) =
      .next { core := accept w s, left := Config.lat cycle w s, cycle := cycle + 1, offer := none } := by
    have hs : settled { core := s, left := left, cycle := cycle, offer := none } = s :=
      settled_of_not_resetInit (by simp [hidle])
    have h := edge_transfers (p := offering w) (violationAt_none_of_no_offer rfl rfl) rfl (hs ▸ hidle) rfl
    rwa [hs] at h
  obtain ⟨c', t, hrun, hfin, hcore, hoffer⟩ := edges_finish wait
    (c := { core := accept w s, left := Config.lat cycle w s, cycle := cycle + 1, offer := none }) (accept_phase w s) rfl
  have hstep : step { s with pending := .cmd w :: s.pending } = finish w (accept w s) :=
    step_cmd_idle (s := { s with pending := .cmd w :: s.pending }) hidle rfl
  exact ⟨c', t, (edges_cons_of_next htransfer _).trans hrun, hstep.trans hfin, hcore, hoffer⟩

end Sys2Proof.Proofs
end

section
/-! PROOFS. Decoding and encoding: a word that is a command is that command's word (R73, R75 to R77). -/

namespace Sys2Proof

/-- A word is packed from its opcode's number and its three operand fields. -/
theorem eq_pack_of_opc {w : Word} {n : Nat} (ho : (opc w).toNat = n) :
    w = pack (BitVec.ofNat 8 n) (b2 w) (b1 w) (b0 w) := by
  rw [← ho, BitVec.ofNat_toNat, BitVec.setWidth_eq, pack_fields]

/-- A word that decodes to a command is that command's word: the opcode picks the arm, and the
reserved bits are 0; format F3 reserves none. -/
theorem encode_of_decode {w : Word} {i : Instr} (h : decode w = .command i) : encode i = w := by
  unfold decode at h
  split at h
  case h_24 => cases h
  all_goals refine Eq.trans ?_ (eq_pack_of_opc ‹_›).symm
  case h_10 | h_16 | h_17 | h_18 | h_19 | h_20 | h_21 | h_22 | h_23 => cases h; rfl
  all_goals
    obtain ⟨hreserved, rfl⟩ := ifReservedZero_eq_command.mp h
    simp only [reservedFN, reservedFS, reservedF1, reservedF2, reservedFH, reservedFH0, reservedFW, Bool.and_eq_true,
      beq_iff_eq, and_assoc] at hreserved
    simp [encode, bitByte_lowBit, octalByte_lowThree, hreserved]

end Sys2Proof
end

section
/-! PROOFS. The counters and their sum: what one increment and one absorbed byte add to it (R150, R158). -/

namespace Sys2Proof.Machine

/-- The sum of an array of counters, as an exact integer; of a state's counters it is `accSum`. -/
def counterSum (acc : Vector Count 256) : Nat := (acc.toList.map BitVec.toNat).sum

theorem accSum_eq (s : State) : accSum s = counterSum s.acc := rfl

theorem sum_set_add_getElem (l : List Nat) {i : Nat} (h : i < l.length) (v : Nat) :
    (l.set i v).sum + l[i] = l.sum + v := by
  induction l generalizing i with
  | nil => cases h
  | cons x l ih =>
    cases i with
    | zero => simp; omega
    | succ i => have := ih (i := i) (by simpa using h); simp; omega

theorem counterSum_setEntry (acc : Vector Count 256) (b : Byte) (v : Count) :
    counterSum (setEntry acc b v) + (entry acc b).toNat = counterSum acc + v.toNat := by
  have h := sum_set_add_getElem (acc.toList.map BitVec.toNat) (i := b.toNat) (by simpa using b.isLt) v.toNat
  rw [← List.map_set, List.getElem_map, Vector.getElem_toList, ← Vector.toList_set] at h
  exact h

theorem entry_le_counterSum (acc : Vector Count 256) (b : Byte) : (entry acc b).toNat ≤ counterSum acc :=
  List.le_sum_of_mem (List.mem_map_of_mem (by simp [entry]))

/-- One increment adds 1 to the sum, as long as the sum, and so every counter, is below 2^64 − 1. -/
theorem counterSum_bump {acc : Vector Count 256} (b : Byte) (h : counterSum acc + 1 < 2 ^ 64) :
    counterSum (bump acc b) = counterSum acc + 1 := by
  have hset := counterSum_setEntry acc b (entry acc b + 1)
  have hle := entry_le_counterSum acc b
  have hadd : (entry acc b + 1).toNat = (entry acc b).toNat + 1 := BitVec.toNat_add_of_lt (by simp; omega)
  rw [bump]
  omega

/-- Step 3 of R150 over some slots adds to the sum one for every open gate. -/
theorem counterSum_trigrams (T : Vector Byte 256) (ch : Byte) (w : Vector WinSlot 4) (ns : List (Fin 8))
    {acc : Vector Count 256} (h : counterSum acc + ns.length < 2 ^ 64) :
    counterSum (ns.foldl (trigramStep T ch w) acc) = counterSum acc + ns.countP (gate w) := by
  induction ns generalizing acc with
  | nil => simp
  | cons n ns ih =>
    rw [List.length_cons] at h
    rw [List.foldl_cons, List.countP_cons, trigramStep]
    split
    · have hbump := counterSum_bump (bucketOf T ch w n) (acc := acc) (by omega)
      rw [ih (by omega), hbump]
      omega
    · exact ih (by omega)

/-- The gates of R151: slot 0 waits for `WIN[1]`, two slots for `WIN[2]` and five for `WIN[3]`. -/
theorem countP_gate_slots (w : Vector WinSlot 4) :
    slots.countP (gate w) = w[1].vld.toNat + 2 * w[2].vld.toNat + 5 * w[3].vld.toNat := by
  cases h1 : w[1].vld <;> cases h2 : w[2].vld <;> cases h3 : w[3].vld <;> simp [slots, gate, gateSlot, h1, h2, h3]

theorem total_le {c : Nat} (h : c ≤ Config.countMax) : total c ≤ 2 ^ 64 - 36 := by
  rw [Config.countMax] at h
  unfold total
  split_ifs <;> omega

end Sys2Proof.Machine
end

section
/-! PROOFS. The window after absorbed bytes, and that absorbing bytes below the count limit keeps the invariant (R24, R25,
R150, R153, R158). -/

namespace Sys2Proof.Machine

@[simp] theorem slide_zero (w : Vector WinSlot 4) (ch : Byte) : (slide w ch)[0] = ⟨ch, true⟩ := rfl

/-- Sliding moves every other slot one place up (R150). -/
theorem slide_succ (w : Vector WinSlot 4) (ch : Byte) {k : Nat} (h : k + 1 < 4) : (slide w ch)[k + 1] = w[k] := by
  match k, h with
  | 0, _ | 1, _ | 2, _ => rfl

/-- R25: after more than `k` bytes slot `k` holds the (k+1)-th most recent of them, whatever the window held before. -/
theorem absorbAll_win (s : State) (bytes : List Byte) (k : Fin 4) (h : k.val < bytes.length) :
    (absorbAll s bytes).win[k] = ⟨bytes.reverse.getD k.val 0, true⟩ := by
  induction bytes using List.reverseRecOn generalizing k with
  | nil => cases h
  | append_singleton bytes b ih =>
    rw [absorbAll_append, List.reverse_append]
    match k, h with
    | ⟨0, _⟩, _ => rfl
    | ⟨k + 1, hk⟩, h =>
      have hslot : (absorbAll (absorbAll s bytes) [b]).win[(⟨k + 1, hk⟩ : Fin 4)] =
          (absorbAll s bytes).win[(⟨k, by omega⟩ : Fin 4)] := slide_succ _ b hk
      rw [hslot, ih ⟨k, by omega⟩ (by simpa using h)]
      rfl

/-- The invariant's clause on a slot, unfolded. -/
theorem slotAgrees_iff {s : State} {k : Fin 4} :
    slotAgrees s k = true ↔ (s.win[k].vld = true ↔ k.val < s.cnt.toNat) ∧ (s.win[k].vld = false → s.win[k].val = 0) := by
  unfold slotAgrees
  generalize s.win[k] = slot
  obtain ⟨val, _ | _⟩ := slot <;> simp

theorem absorb_cnt_toNat {s : State} (ch : Byte) (h : s.cnt.toNat < Config.countMax) :
    (absorb s ch).cnt.toNat = s.cnt.toNat + 1 := by
  rw [Config.countMax] at h
  exact BitVec.toNat_add_of_lt (by simp; omega)

/-- Below the limit no register wraps: the count goes up by one per byte (R153). -/
theorem absorbAll_cnt_toNat {s : State} {bytes : List Byte} (h : s.cnt.toNat + bytes.length ≤ Config.countMax) :
    (absorbAll s bytes).cnt.toNat = s.cnt.toNat + bytes.length := by
  rw [Config.countMax] at h
  rw [absorbAll_cnt, BitVec.toNat_add_of_lt] <;> simp <;> omega

theorem slotAgrees_absorb {s : State} {ch : Byte} (h : ∀ k, slotAgrees s k = true) (hlimit : s.cnt.toNat < Config.countMax)
    (k : Fin 4) : slotAgrees (absorb s ch) k = true := by
  rw [slotAgrees_iff, absorb_cnt_toNat ch hlimit]
  match k with
  | ⟨0, _⟩ => simp
  | ⟨k + 1, hk⟩ =>
    have hslot : (absorb s ch).win[(⟨k + 1, hk⟩ : Fin 4)] = s.win[(⟨k, by omega⟩ : Fin 4)] := slide_succ s.win ch hk
    rw [hslot]
    simpa using slotAgrees_iff.mp (h ⟨k, by omega⟩)

/-- The gates that a byte finds open, from the count before it: `total` grows by exactly their number (R158, R180). -/
theorem total_succ_of_window {s : State} (h : ∀ k, slotAgrees s k = true) :
    total (s.cnt.toNat + 1) = total s.cnt.toNat + slots.countP (gate s.win) := by
  have hvalid (k : Fin 4) : s.win[k].vld = decide (k.val < s.cnt.toNat) := by
    rw [Bool.eq_iff_iff, decide_eq_true_iff]
    exact (slotAgrees_iff.mp (h k)).1
  have h1 : s.win[1].vld = decide (1 < s.cnt.toNat) := hvalid 1
  have h2 : s.win[2].vld = decide (2 < s.cnt.toNat) := hvalid 2
  have h3 : s.win[3].vld = decide (3 < s.cnt.toNat) := hvalid 3
  rw [countP_gate_slots, h1, h2, h3]
  simp only [Bool.toNat, Bool.cond_decide]
  unfold total
  split_ifs <;> omega

/-- In a state that meets the invariant an absorbed byte adds one to the counters' sum for every open gate (R158). -/
theorem accSum_absorb {s : State} (h : Inv s) (ch : Byte) :
    accSum (absorb s ch) = accSum s + slots.countP (gate s.win) := by
  have hsum : counterSum s.acc ≤ 2 ^ 64 - 36 := by
    rw [← accSum_eq, h.sum]
    exact total_le h.count
  rw [accSum_eq, accSum_eq, absorb_acc]
  exact counterSum_trigrams s.tran ch s.win slots (by simp [slots]; omega)

theorem inv_absorb {s : State} (h : Inv s) (ch : Byte) (hlimit : s.cnt.toNat < Config.countMax) : Inv (absorb s ch) where
  count := by rw [absorb_cnt_toNat ch hlimit]; exact hlimit
  window := slotAgrees_absorb h.window hlimit
  sum := by rw [accSum_absorb h, h.sum, absorb_cnt_toNat ch hlimit, total_succ_of_window h.window]
  presented := h.presented
  received := h.received

theorem inv_absorbAll {s : State} (h : Inv s) (bytes : List Byte)
    (hlimit : s.cnt.toNat + bytes.length ≤ Config.countMax) : Inv (absorbAll s bytes) := by
  induction bytes generalizing s with
  | nil => exact h
  | cons b rest ih =>
    rw [List.length_cons] at hlimit
    have hb : s.cnt.toNat < Config.countMax := by omega
    exact ih (inv_absorb h b hb) (by rw [absorb_cnt_toNat b hb]; omega)

end Sys2Proof.Machine
end

section
/-! PROOFS. What a command can do to the elements of R20, said once (R51), and what a transaction leaves. -/

namespace Sys2Proof.Machine

/-- `CommandEffect s i u`: executing the command `i` in `s` may give the elements of R20 other than PHASE the values they
have in `u`. The two cases of an UPDn are told apart by the count limit (R153). -/
inductive CommandEffect (s : State) : Instr → State → Prop
  | read {i : Instr} : CommandEffect s i s
  | init : CommandEffect s .init { s with cnt := 0, acc := accZero, win := winUnset, dbuf := dbufZero, ovf := false }
  | clearIll : CommandEffect s (.stat true) (clearIll s)
  | gen {seed : Byte} : CommandEffect s (.gen seed) { s with tran := gen seed }
  | twr {idx val : Byte} : CommandEffect s (.twr idx val) { s with tran := setEntry s.tran idx val }
  | dig : CommandEffect s .dig { s with dbuf := digest s }
  | absorb {i : Instr} (hbytes : inputBytes i ≠ []) (hlimit : s.cnt.toNat + (inputBytes i).length ≤ Config.countMax) :
      CommandEffect s i (absorbAll s (inputBytes i))
  | overflow {i : Instr} (hbytes : inputBytes i ≠ []) (hlimit : Config.countMax < s.cnt.toNat + (inputBytes i).length) :
      CommandEffect s i (setOvf s)

/-- A legal response does not have the reserved status (R71). -/
theorem Response.status_ne_reserved {r : Response} (h : r.legal = true) : r.status ≠ .reserved := by
  intro hr
  simp [Response.legal, hr] at h

theorem update_effect {i : Instr} {s : State} (hbytes : inputBytes i ≠ []) :
    ∃ st data u, update (inputBytes i) s = .next (respond st data u) ∧ Response.legal ⟨st, data⟩ = true ∧
      CommandEffect s i u := by
  rcases update_cases (inputBytes i) s with ⟨hlimit, h⟩ | ⟨hlimit, h⟩
  · exact ⟨_, _, _, h, rfl, .absorb hbytes hlimit⟩
  · exact ⟨_, _, _, h, rfl, .overflow hbytes hlimit⟩

/-- Every command ends with a legal response and has one of the effects above. -/
theorem exec_effect (i : Instr) (s : State) :
    ∃ st data u, exec i s = .next (respond st data u) ∧ Response.legal ⟨st, data⟩ = true ∧ CommandEffect s i u := by
  cases i with
  | init => exact ⟨_, _, _, rfl, rfl, .init⟩
  | stat clr =>
    cases clr with
    | false => exact ⟨_, _, _, exec_stat false s, rfl, .read⟩
    | true => exact ⟨_, _, _, exec_stat true s, rfl, .clearIll⟩
  | gen seed => exact ⟨_, _, _, exec_gen seed s, rfl, .gen⟩
  | twr idx val => exact ⟨_, _, _, exec_twr idx val s, rfl, .twr⟩
  | dig => exact ⟨_, _, _, exec_dig s, rfl, .dig⟩
  | upd1 d0 => exact update_effect (i := .upd1 d0) (List.cons_ne_nil _ _)
  | upd2 d0 d1 => exact update_effect (i := .upd2 d0 d1) (List.cons_ne_nil _ _)
  | upd3 d0 d1 d2 => exact update_effect (i := .upd3 d0 d1 d2) (List.cons_ne_nil _ _)
  | _ => exact ⟨_, _, _, rfl, rfl, .read⟩

theorem CommandEffect.taken {s u : State} {i : Instr} (h : CommandEffect s i u) : u.taken = s.taken := by
  cases h with
  | absorb => exact absorbAll_taken ..
  | _ => rfl

/-- The count falls only by INIT (R22). -/
theorem CommandEffect.cnt_le {s u : State} {i : Instr} (h : CommandEffect s i u) (hi : i ≠ .init) :
    s.cnt.toNat ≤ u.cnt.toNat := by
  cases h with
  | init => exact absurd rfl hi
  | absorb _ hlimit => rw [absorbAll_cnt_toNat hlimit]; exact Nat.le_add_right ..
  | _ => exact Nat.le_refl _

/-- Only STAT with CLR = 1 changes `STAT.ILL` (R28). -/
theorem CommandEffect.ill_eq {s u : State} {i : Instr} (h : CommandEffect s i u) (hi : i ≠ .stat true) :
    u.ill = s.ill := by
  cases h with
  | clearIll => exact absurd rfl hi
  | absorb => exact absorbAll_ill ..
  | _ => rfl

/-- Only INIT clears `STAT.OVF` (R29). -/
theorem CommandEffect.ovf_kept {s u : State} {i : Instr} (h : CommandEffect s i u) (hi : i ≠ .init) (hs : s.ovf = true) :
    u.ovf = true := by
  cases h with
  | init => exact absurd rfl hi
  | absorb => rw [absorbAll_ovf, hs]
  | overflow => rfl
  | _ => exact hs

/-- The effect of a word: a command's, or `STAT.ILL` set (R76, R221). -/
def WordEffect (s : State) (w : Word) (u : State) : Prop := u = setIll s ∨ ∃ i, encode i = w ∧ CommandEffect s i u

/-- Every word ends with a legal response and has its effect. -/
theorem execWord_effect (w : Word) (s : State) :
    ∃ st data u, execWord w s = .next (respond st data u) ∧ Response.legal ⟨st, data⟩ = true ∧ WordEffect s w u := by
  cases hw : decode w with
  | illegal why => exact ⟨_, _, _, execWord_illegal hw s, rfl, .inl rfl⟩
  | command i =>
    obtain ⟨st, data, u, he, hlegal, heffect⟩ := exec_effect i s
    exact ⟨st, data, u, (execWord_command hw s).trans he, hlegal, .inr ⟨i, encode_of_decode hw, heffect⟩⟩

theorem WordEffect.taken {s u : State} {w : Word} (h : WordEffect s w u) : u.taken = s.taken := by
  obtain rfl | ⟨i, -, h⟩ := h
  · rfl
  · exact h.taken

/-- A word whose response is not the reserved one: `finish` hands the response over (R256). -/
theorem finish_of_execWord {w : Word} {s u : State} {st : Status} {data : Word} (h : execWord w s = .next (respond st data u))
    (hst : st ≠ .reserved) : finish w s = .next { u with phase := .idle, taken := u.taken ++ [⟨st, data⟩] } := by
  simp [finish, h, deliver_respond st data u hst]

/-- What the end of a transaction leaves: the word's effect, and its legal response among those taken. -/
theorem finish_effect {w : Word} {s t : State} (h : finish w s = .next t) :
    ∃ r u, r.legal = true ∧ WordEffect s w u ∧ t = { u with phase := .idle, taken := s.taken ++ [r] } := by
  obtain ⟨st, data, u, he, hlegal, heffect⟩ := execWord_effect w s
  rw [finish_of_execWord he (Response.status_ne_reserved hlegal), heffect.taken] at h
  cases h
  exact ⟨_, u, hlegal, heffect, rfl⟩

end Sys2Proof.Machine
end

section
/-! PROOFS. The invariant: it holds at reset, and the effect of every word, the taking of a response and a reset keep it. -/

namespace Sys2Proof.Machine

/-- A fresh hash state meets the invariant's clauses on the hash. -/
theorem inv_of_fresh_hash {s : State} (hc : s.cnt = 0) (ha : s.acc = accZero) (hw : s.win = winUnset)
    (hp : phaseLegal s = true) (ht : ∀ r ∈ s.taken, r.legal = true) : Inv s where
  count := by simp [hc]
  window k := by simp [slotAgrees, hc, hw]
  sum := by simp [accSum, hc, ha, total]
  presented := hp
  received := ht

/-- A state with the same hash state, phase and taken responses meets the invariant too. -/
theorem inv_of_same_elements {s t : State} (h : Inv s) (hc : t.cnt = s.cnt) (ha : t.acc = s.acc) (hw : t.win = s.win)
    (hp : t.phase = s.phase) (ht : t.taken = s.taken) : Inv t :=
  inv_of_same_hash h hc ha hw (by simpa only [phaseLegal, hp] using h.presented) (ht ▸ h.received)

theorem inv_reset : Inv State.reset := inv_of_fresh_hash rfl rfl rfl rfl (by simp)

theorem inv_commandEffect {s u : State} {i : Instr} (h : Inv s) (he : CommandEffect s i u) : Inv u := by
  cases he with
  | init => exact inv_of_fresh_hash rfl rfl rfl h.presented h.received
  | absorb _ hlimit => exact inv_absorbAll h _ hlimit
  | _ => exact inv_of_same_elements h rfl rfl rfl rfl rfl

theorem inv_wordEffect {s u : State} {w : Word} (h : Inv s) (he : WordEffect s w u) : Inv u := by
  obtain rfl | ⟨i, -, he⟩ := he
  · exact inv_of_same_elements h rfl rfl rfl rfl rfl
  · exact inv_commandEffect h he

/-- Taking a legal response keeps the invariant (R256). -/
theorem inv_take {s : State} {r : Response} (h : Inv s) (hr : r.legal = true) :
    Inv { s with phase := .idle, taken := s.taken ++ [r] } :=
  inv_of_same_hash h rfl rfl rfl rfl (by simpa [or_imp, forall_and, hr] using h.received)

theorem inv_deliver {s t : State} (h : Inv s) (hd : deliver s = .next t) : Inv t := by
  obtain ⟨r, hp, -, rfl⟩ | ⟨-, rfl⟩ := deliver_next hd
  · exact inv_take h (by simpa [phaseLegal, hp] using h.presented)
  · exact h

theorem inv_finish {s t : State} {w : Word} (h : Inv s) (hf : finish w s = .next t) : Inv t := by
  obtain ⟨r, u, hr, he, rfl⟩ := finish_effect hf
  rw [← he.taken]
  exact inv_take (inv_wordEffect h he) hr

theorem inv_step {s t : State} (h : Inv s) (hstep : step s = .next t) : Inv t := by
  obtain ⟨rest, -, rfl⟩ | ⟨w, rest, -, -, ht⟩ | ⟨-, rfl⟩ | ⟨-, -, rfl⟩ | ⟨w, -, hf⟩ | ⟨r, -, hd⟩ := step_cases hstep
  · exact inv_of_fresh_hash rfl rfl rfl rfl h.received
  · exact inv_finish (s := accept w { s with pending := rest }) (inv_of_same_hash h rfl rfl rfl rfl h.received) ht
  · exact inv_of_same_hash h rfl rfl rfl rfl h.received
  · exact h
  · exact inv_finish h hf
  · exact inv_deliver h hd

theorem inv_reachable {s : State} (h : Reachable s) : Inv s :=
  reachable_induction (fun _ => inv_of_same_hash inv_reset rfl rfl rfl rfl inv_reset.received) (fun _ _ => inv_step) h

end Sys2Proof.Machine
end

section
/-! PROOFS. A relation between an element before and after a step, from the relation for each effect. -/

namespace Sys2Proof.Machine

open Sys2Proof.Spec

section element

/-! `f` reads elements of R20 other than PHASE, and `R` is a relation that the effect of every word but `i₀`'s keeps between
`f` before and `f` after. -/

variable {α : Type} {f : State → α} {R : α → α → Prop} {i₀ : Instr}
  (hf : ∀ s phase pending taken, f { s with phase := phase, pending := pending, taken := taken } = f s)
  (hill : ∀ s, R (f s) (f (setIll s)))
  (heffect : ∀ {s u : State} {i : Instr}, CommandEffect s i u → i ≠ i₀ → R (f s) (f u))
include hf hill heffect

/-- A transaction keeps `R`, unless it runs `i₀`'s word. -/
theorem finish_relates {w : Word} {s t : State} (h : finish w s = .next t) : R (f s) (f t) ∨ encode i₀ = w := by
  obtain ⟨r, u, -, he, rfl⟩ := finish_effect h
  rw [hf u .idle u.pending (s.taken ++ [r])]
  obtain rfl | ⟨i, rfl, he⟩ := he
  · exact .inl (hill s)
  · by_cases hi : i = i₀
    · exact .inr (congrArg encode hi.symm)
    · exact .inl (heffect he hi)

/-- Every step keeps `R`, but one that runs `i₀`'s word and one that is a reset. -/
theorem step_relates (hrefl : ∀ x, R x x) {s t : State} (h : step s = .next t) :
    R (f s) (f t) ∨ runsNext s (encode i₀) ∨ resetNext s := by
  obtain ⟨rest, hp, -⟩ | ⟨w, rest, hidle, hp, ht⟩ | ⟨-, rfl⟩ | ⟨-, -, rfl⟩ | ⟨w, hbusy, hfin⟩ | ⟨r, -, hd⟩ := step_cases h
  · exact .inr (.inr ⟨rest, hp⟩)
  · have hruns : runsNext s w := .inr ⟨hidle, rest, hp⟩
    have hbefore : f (accept w { s with pending := rest }) = f s := hf s (.busy w) rest s.taken
    obtain hrel | rfl := finish_relates hf hill heffect ht
    · exact .inl (hbefore ▸ hrel)
    · exact .inr (.inl hruns)
  · exact .inl ((hf s .idle s.pending s.taken).symm ▸ hrefl _)
  · exact .inl (hrefl _)
  · by_cases hr : resetNext s
    · exact .inr (.inr hr)
    · have hruns : runsNext s w := .inl ⟨hbusy, fun rest hp => hr ⟨rest, hp⟩⟩
      obtain hrel | rfl := finish_relates hf hill heffect hfin
      · exact .inl hrel
      · exact .inr (.inl hruns)
  · obtain ⟨r, -, -, rfl⟩ | ⟨-, rfl⟩ := deliver_next hd
    · exact .inl ((hf s .idle s.pending (s.taken ++ [r])).symm ▸ hrefl _)
    · exact .inl (hrefl _)

end element

end Sys2Proof.Machine
end

section
/-! PROOFS. The status image bit by bit (R27, R30). -/

namespace Sys2Proof.Machine

/-- Bit `i` of the image is a bit of the field that covers it (R27). -/
theorem getLsbD_statWord (s : State) (i : Nat) :
    (statWord s).getLsbD i =
      if i < 1 then (BitVec.ofBool s.ill).getLsbD i else if i - 1 < 1 then (BitVec.ofBool s.ovf).getLsbD (i - 1)
      else if i - 1 - 1 < 2 then (0#2).getLsbD (i - 1 - 1)
      else if i - 1 - 1 - 2 < 4 then (windowValid s.win).getLsbD (i - 1 - 1 - 2)
      else (0#24).getLsbD (i - 1 - 1 - 2 - 4) := by
  simp only [statWord, BitVec.getLsbD_append]

theorem statWord_ill (s : State) : (statWord s).getLsbD 0 = s.ill := by
  simp [getLsbD_statWord, -BitVec.getLsbD_eq_getElem]

theorem statWord_ovf (s : State) : (statWord s).getLsbD 1 = s.ovf := by
  simp [getLsbD_statWord, -BitVec.getLsbD_eq_getElem]

theorem statWord_reserved (s : State) {i : Nat} (h2 : 2 ≤ i) (h4 : i < 4) : (statWord s).getLsbD i = false := by
  rw [getLsbD_statWord, if_neg (by omega), if_neg (by omega), if_pos (by omega), BitVec.getLsbD_zero]

/-- Bit `k` of `STAT.WV` is the valid bit of slot `k` (R30). -/
theorem getLsbD_windowValid (win : Vector WinSlot 4) (k : Fin 4) : (windowValid win).getLsbD k.val = win[k].vld := by
  simp only [windowValid, BitVec.getLsbD_append]
  fin_cases k <;> simp

theorem statWord_window (s : State) (k : Fin 4) : (statWord s).getLsbD (4 + k.val) = s.win[k].vld := by
  rw [getLsbD_statWord, ← getLsbD_windowValid, if_neg (by omega), if_neg (by omega), if_neg (by omega),
    if_pos (by omega), show 4 + k.val - 1 - 1 - 2 = k.val by omega]

theorem statWord_high (s : State) : (statWord s).extractLsb' 8 24 = 0 := by
  apply BitVec.eq_of_getLsbD_eq
  intro i hi
  rw [BitVec.getLsbD_extractLsb', getLsbD_statWord, if_neg (by omega), if_neg (by omega), if_neg (by omega),
    if_neg (by omega)]
  simp

end Sys2Proof.Machine
end

section
/-! PROOFS. The table of reset (R107). -/

namespace Sys2Proof.Machine

/-- The values of seed 53 are the listing of R107; the kernel runs the generator, once, on plain lists. -/
theorem genValues_53 : (genValues 53).map (BitVec.ofNat 8) = Config.defaultTable.toList := by decide +kernel

/-- R107: the table that reset loads is the one that seed 53 generates. -/
theorem gen_53 : gen 53 = Config.defaultTable := Vector.toList_inj.mp genValues_53

end Sys2Proof.Machine
end

section
namespace Sys2Proof.Proofs

open Sys2Proof.Machine Sys2Proof.Spec

/-- Settles O52: the invariant is kept by the effect of every word, by the taking of its response and by a reset. -/
theorem everyStepKeepsTheInvariant : Obligations.EveryStepKeepsTheInvariant := fun _ _ => inv_step

/-- Settles O30: validity is the invariant's, and each absorbed byte slides into the window. -/
theorem windowHoldsTheLastBytes : Obligations.WindowHoldsTheLastBytes := by
  have hvalid {s : State} (k : Fin 4) (h : Reachable s) : s.win[k].vld = true ↔ s.cnt.toNat > k.val :=
    (slotAgrees_iff.mp ((inv_reachable h).window k)).1
  exact ⟨fun s k h => hvalid k h, fun s h hc k => (hvalid k h).mpr (by omega), absorbAll_win⟩

/-- Settles O31: an UPDn within the limit does not wrap the count, and of the other commands only INIT writes it. -/
theorem countFallsOnlyByInitOrReset : Obligations.CountFallsOnlyByInitOrReset := by
  intro s t _ h hlt
  have hstep := step_relates (f := fun s => s.cnt.toNat) (R := (· ≤ ·)) (i₀ := .init) (fun _ _ _ _ => rfl)
    (fun _ => Nat.le_refl _) CommandEffect.cnt_le Nat.le_refl h
  exact hstep.resolve_left (Nat.not_le_of_lt hlt)

/-- Settles O41: the image is taken before the clear. -/
theorem statResult : Obligations.StatResult := by
  intro clr s
  refine ⟨statWord s, ?_, statWord_ill s, statWord_ovf s, statWord_reserved s (by decide) (by decide),
    statWord_reserved s (by decide) (by decide), statWord_window s, statWord_high s⟩
  cases clr <;> simp [exec_stat, respond, clearIll]

/-- Settles O45: STAT with CLR = 1 is the only command that writes `STAT.ILL`. -/
theorem illIsSticky : Obligations.IllIsSticky := by
  refine ⟨fun s w why h => ⟨_, execWord_illegal h s, rfl, rfl⟩, fun s t h hs => ?_,
    fun s => ⟨_, _, exec_stat true s, rfl, statWord_ill s, rfl⟩, fun s => ⟨_, rfl, rfl⟩, reset_ill⟩
  have hstep := step_relates (f := State.ill) (R := fun x y => x = true → y = true) (i₀ := .stat true) (fun _ _ _ _ => rfl)
    (fun _ _ => rfl) (fun he hi hs => (he.ill_eq hi).trans hs) (fun _ => id) h
  exact hstep.imp (· hs) id

/-- Settles O46: INIT is the only command that clears `STAT.OVF`. -/
theorem ovfIsSticky : Obligations.OvfIsSticky := by
  intro s t h hs
  have hstep := step_relates (f := State.ovf) (R := fun x y => x = true → y = true) (i₀ := .init) (fun _ _ _ _ => rfl)
    (fun _ => id) CommandEffect.ovf_kept (fun _ => id) h
  exact hstep.imp (· hs) id

/-- Settles O8: `State.reset` lists the values, and its table is the one seed 53 generates. -/
theorem resetStateValues : Obligations.ResetStateValues :=
  ⟨gen_53.symm, rfl, entry_accZero, fun k => winUnset_get k.isLt, fun m => dbufZero_get m.isLt, rfl, rfl, rfl⟩

/-- Settles O49: a step in Idle is `finish` of the word accepted, and `finish` is its `execWord` and the hand-over. -/
theorem stepRunsTheDecodedCommand : Obligations.StepRunsTheDecodedCommand := by
  intro s w rest hidle hpending
  have hstep : step s = finish w { s with phase := .busy w, pending := rest } := step_cmd_idle hidle hpending
  refine ⟨fun i hw => ?_, fun why hw => ?_⟩
  · obtain ⟨st, data, u, he, hlegal, -⟩ := exec_effect i { s with phase := .busy w, pending := rest }
    have hfinish := finish_of_execWord ((execWord_command hw _).trans he) (Response.status_ne_reserved hlegal)
    exact ⟨_, _, he, rfl, hstep.trans hfinish⟩
  · rw [hstep, finish_of_execWord (execWord_illegal hw _) (by simp), ← hidle]
    rfl

/-- Settles O51: a fresh hash state, nothing presented and nothing taken. -/
theorem invariantAtReset : Obligations.InvariantAtReset := inv_reset

end Sys2Proof.Proofs
end

section
/-! PROOFS. Response data: the halves of a counter (R54), the bytes of `DBUF` (R53), and the count an UPDn reports (R155 to
R157). -/

namespace Sys2Proof.Machine

/-- Bits [63:32] above bits [31:0] make the 64-bit value (R54). -/
theorem half_toNat (v : Count) : (half true v).toNat * 2 ^ 32 + (half false v).toNat = v.toNat := by
  have hv := v.isLt
  simp only [half, if_true, Bool.false_eq_true, if_false, BitVec.extractLsb'_toNat, Nat.shiftRight_eq_div_pow]
  omega

theorem half_false (v : Count) : half false v = BitVec.ofNat 32 v.toNat := by
  simp [half, BitVec.extractLsb']

/-- Response data are packed like a command word: the first byte in bits [31:24] (R53, R72). -/
theorem fourBytes_eq_pack (hi x y lo : Byte) : fourBytes hi x y lo = pack hi x y lo := rfl

/-- The fields of the word that word select `ws` reads are the bytes 4·ws to 4·ws + 3 of `DBUF`, in this order (R53). -/
theorem dbufWord_fields (dbuf : Vector Byte 32) (ws : BitVec 3) :
    opc (dbufWord dbuf ws) = dbuf.toList.getD (4 * ws.toNat) 0 ∧
    b2 (dbufWord dbuf ws) = dbuf.toList.getD (4 * ws.toNat + 1) 0 ∧
    b1 (dbufWord dbuf ws) = dbuf.toList.getD (4 * ws.toNat + 2) 0 ∧
    b0 (dbufWord dbuf ws) = dbuf.toList.getD (4 * ws.toNat + 3) 0 := by
  have hws := ws.isLt
  have hbyte (k : Nat) (hk : k < 32) : dbuf[k] = dbuf.toList.getD k 0 := by simp [hk]
  simp only [dbufWord, fourBytes_eq_pack, opc_pack, b2_pack, b1_pack, b0_pack, hbyte, and_self]

/-- Within the count limit an UPDn absorbs all its bytes and reports the low 32 bits of the new count (R153). -/
theorem update_of_le {bytes : List Byte} {s : State} (h : s.cnt.toNat + bytes.length ≤ Config.countMax) :
    update bytes s = .next (respond .ok (BitVec.ofNat 32 (s.cnt.toNat + bytes.length)) (absorbAll s bytes)) := by
  rw [← absorbAll_cnt_toNat h, ← half_false]
  exact (update_cases bytes s).elim And.right fun ⟨hlimit, _⟩ => absurd h (Nat.not_le_of_lt hlimit)

end Sys2Proof.Machine
end

section
/-! PROOFS. A command issued a second time (R58). -/

namespace Sys2Proof.Machine

theorem setEntry_setEntry_same {α : Type} (arr : Vector α 256) (i : Byte) (v v' : α) :
    setEntry (setEntry arr i v) i v' = setEntry arr i v' := by
  refine ext_entry fun j => ?_
  simp only [entry_setEntry]
  split <;> rfl

/-- No command reads the phase, and each overwrites it; UPDn, which is never idempotent, is left out. -/
theorem exec_respond {i : Instr} (hbytes : inputBytes i = []) (st : Status) (data : Word) (s : State) :
    exec i (respond st data s) = exec i s := by
  cases i with
  | upd1 | upd2 | upd3 => cases hbytes
  | stat clr => cases clr <;> rfl
  | _ => rfl

/-- DIG reads the hash state and not the snapshot it overwrites (R187). -/
theorem exec_dig_dbuf (s : State) (dbuf : Vector Byte 32) : exec .dig { s with dbuf := dbuf } = exec .dig s := rfl

/-- What a command other than UPDn and STAT with CLR = 1 reads its effect leaves alone, and what it writes it writes again. -/
theorem CommandEffect.exec_eq {s u : State} {i : Instr} (h : CommandEffect s i u) (hbytes : inputBytes i = [])
    (hclr : i ≠ .stat true) : exec i u = exec i s := by
  cases h with
  | clearIll => exact absurd rfl hclr
  | dig => exact exec_dig_dbuf s _
  | twr => simp [exec_twr, setEntry_setEntry_same]
  | absorb hne | overflow hne => exact absurd hbytes hne
  | _ => rfl

theorem exec_idempotent {i : Instr} {s t : State} (hbytes : inputBytes i = []) (hclr : i ≠ .stat true)
    (h : exec i s = .next t) : exec i t = .next t := by
  obtain ⟨st, data, u, he, -, heffect⟩ := exec_effect i s
  cases he.symm.trans h
  rw [exec_respond hbytes, heffect.exec_eq hbytes hclr, h]

end Sys2Proof.Machine
end

section
/-! PROOFS. Words offered one after another: each step from Idle takes one word and leaves one response (R60, R66). -/

namespace Sys2Proof.Machine

theorem run_succ_of_step {s t : State} (h : step s = .next t) (k : Nat) :
    Host.Core.run Sys2Proof.core (k + 1) s = Host.Core.run Sys2Proof.core k t := by
  have hcore : Sys2Proof.core.step s = .next t := h
  simp only [Host.Core.run, hcore]

/-- A step from Idle with a word offered ends in Idle, with the word done and its response taken (R60, R71). -/
theorem step_takes_response {s : State} {w : Word} {rest : List HostEvent} (hidle : s.phase = .idle)
    (hpending : s.pending = .cmd w :: rest) :
    ∃ r t, step s = .next t ∧ (r.status ≠ .reserved ∧ (r.status ≠ .ok → r.data = 0)) ∧
      t.phase = .idle ∧ t.pending = rest ∧ t.taken = s.taken ++ [r] := by
  obtain ⟨st, data, u, -, hst, hdata, hp, ht, hfinish⟩ := finish_next w (accept w { s with pending := rest })
  exact ⟨⟨st, data⟩, _, (step_cmd_idle hidle hpending).trans hfinish, ⟨hst, hdata.resolve_left⟩, rfl, hp, by simp [ht]⟩

end Sys2Proof.Machine
end

section
/-! PROOFS. What a rising edge that answers can be, said once (R251 to R256). -/

namespace Sys2Proof.Machine

open Host (Outcome)

section inversion
variable {c c' : Clocked} {p : PortsIn}

/-- `EdgeEffect c p c'`: the ways in which a rising edge at which no protocol is broken can lead from `c` to `c'`. -/
inductive EdgeEffect (c : Clocked) (p : PortsIn) : Clocked → Prop
  | reset (hr : p.rst = true) : EdgeEffect c p (resetEdge c p)
  | initializes (hr : p.rst = false) (hp : c.core.phase = .resetInit) (hl : c.left ≠ 0) :
      EdgeEffect c p (afterEdge c p c.core (c.left - 1))
  | transfers (hr : p.rst = false) (hp : (settled c).phase = .idle) (hc : p.cmdValid = true) :
      EdgeEffect c p { core := accept p.cmdData (settled c), left := Config.lat c.cycle p.cmdData (settled c),
                       cycle := c.cycle + 1, offer := none }
  | stays (hr : p.rst = false) (hp : (settled c).phase = .idle) (hc : p.cmdValid = false) :
      EdgeEffect c p (afterEdge c p (settled c) 0)
  | waits {w : Word} (hr : p.rst = false) (hp : c.core.phase = .busy w) (hl : c.left ≠ 0) :
      EdgeEffect c p (afterEdge c p c.core (c.left - 1))
  | completes {w : Word} {t : State} (hr : p.rst = false) (hp : c.core.phase = .busy w) (hl : c.left = 0)
      (he : execWord w c.core = .next t) : EdgeEffect c p (afterEdge c p t 0)
  | holds {r : Response} (hr : p.rst = false) (hp : c.core.phase = .rspPending r) (hn : p.rspReady = false) :
      EdgeEffect c p (afterEdge c p c.core 0)
  | delivers {r : Response} (hr : p.rst = false) (hp : c.core.phase = .rspPending r) (hy : p.rspReady = true)
      (hst : r.status ≠ .reserved) :
      EdgeEffect c p (afterEdge c p { c.core with phase := .idle, taken := c.core.taken ++ [r] } 0)

/-- The phase in force is the core's own unless it is Idle (R252). -/
theorem settled_of_not_idle (h : (settled c).phase ≠ .idle) : settled c = c.core := by
  refine if_neg fun hready => h ?_
  rw [settled, if_pos hready, enterIdle_phase]

theorem settled_eq (c : Clocked) : settled c = { c.core with phase := (settled c).phase } := by
  unfold settled
  split <;> rfl

theorem runEdge_effect (hr : p.rst = false) (h : runEdge c p = .next c') : EdgeEffect c p c' := by
  have hown {phase : Phase} (hp : (settled c).phase = phase) (hi : phase ≠ .idle) : c.core.phase = phase :=
    settled_of_not_idle (hp ▸ hi) ▸ hp
  unfold runEdge at h
  split at h
  case h_1 hp =>
    cases h
    have hcore := hown hp (by simp)
    exact .initializes hr hcore fun hl => by simp [settled, hcore, hl] at hp
  case h_2 hp =>
    split at h <;> cases h
    · exact .transfers hr hp ‹_›
    · exact .stays hr hp (Bool.eq_false_of_not_eq_true ‹_›)
  case h_3 w hp =>
    have hcore := hown hp (by simp)
    split at h
    · obtain ⟨st, data, u, he, -⟩ := execWord_responds w c.core
      simp only [he] at h
      cases h
      exact .completes hr hcore ‹_› he
    · cases h
      exact .waits hr hcore ‹_›
  case h_4 r hp =>
    have hcore := hown hp (by simp)
    split at h
    · cases hd : deliver c.core with
      | next t =>
        simp only [hd] at h
        cases h
        obtain ⟨r', hr', hst, rfl⟩ | ⟨hno, -⟩ := deliver_next hd
        · exact .delivers hr hr' ‹_› hst
        · exact absurd hcore (hno r)
      | fault f => simp [hd] at h
      | refused f => simp [hd] at h
    · cases h
      exact .holds hr hcore (Bool.eq_false_of_not_eq_true ‹_›)

theorem edge_effect (h : edge c p = .next c') : violationAt c p = none ∧ EdgeEffect c p c' := by
  cases hv : violationAt c p with
  | some v => simp [edge, hv] at h
  | none =>
    refine ⟨rfl, ?_⟩
    cases hr : p.rst with
    | true =>
      simp only [edge, hv, hr, if_true, Outcome.next.injEq] at h
      exact h ▸ .reset hr
    | false =>
      rw [edge_eq_runEdge hv hr] at h
      exact runEdge_effect hr h

end inversion

end Sys2Proof.Machine
end

section
namespace Sys2Proof.Proofs

open Sys2Proof.Machine Sys2Proof.Spec

/-- Settles O25: `update` within the limit, for one, two and three bytes. -/
theorem updateResults : Obligations.UpdateResults := fun d0 d1 d2 _ =>
  ⟨update_of_le (bytes := [d0]), update_of_le (bytes := [d0, d1]), update_of_le (bytes := [d0, d1, d2])⟩

/-- Settles O38: the four bytes are the fields of the word DRD answers. -/
theorem drdResult : Obligations.DrdResult := fun ws s => ⟨_, exec_drd ws s, dbufWord_fields s.dbuf ws⟩

/-- Settles O42: the data are the two halves of the register. -/
theorem counterHalves : Obligations.CounterHalves := fun idx s =>
  ⟨_, _, _, _, exec_crd false s, exec_crd true s, exec_ard idx false s, exec_ard idx true s, half_toNat s.cnt,
    half_toNat (entry s.acc idx)⟩

/-- Settles O47: by the effects that a command can have; its response changes only the phase. -/
theorem writersOfEachElement : Obligations.WritersOfEachElement := by
  intro i s t h
  obtain ⟨st, data, u, he, -, heffect⟩ := exec_effect i s
  cases he.symm.trans h
  cases heffect with
  | absorb hbytes => simp [hbytes, absorbAll_pending, absorbAll_taken]
  | overflow hbytes => simp [hbytes]
  | _ => simp

/-- Settles O48: an illegal word sets `STAT.ILL` again, and a command is idempotent. -/
theorem repeatedCommandsAreIdempotent : Obligations.RepeatedCommandsAreIdempotent := by
  intro w s t hword h
  cases hw : decode w with
  | illegal why =>
    rw [execWord_illegal hw] at h ⊢
    cases h
    rfl
  | command i =>
    obtain ⟨hbytes, hclr⟩ := hword i hw
    rw [execWord_command hw] at h ⊢
    exact exec_idempotent hbytes hclr h

/-- Settles O50: by induction on the words; the first step takes the first response and leaves the core idle. -/
theorem oneResponsePerCommandInOrder : Obligations.OneResponsePerCommandInOrder := by
  intro s words
  induction words generalizing s with
  | nil =>
    intro hidle hpending
    refine ⟨[], rfl, by simp, fun k hk => ?_⟩
    obtain rfl := Nat.le_zero.mp hk
    exact ⟨s, rfl, hidle, hpending, by simp⟩
  | cons w words ih =>
    intro hidle hpending
    obtain ⟨r, t, hstep, hr, hidle', hpending', htaken⟩ := step_takes_response hidle hpending
    obtain ⟨rs, hlength, hrs, hrun⟩ := ih t hidle' hpending'
    refine ⟨r :: rs, congrArg (· + 1) hlength, List.forall_mem_cons.mpr ⟨hr, hrs⟩, fun k hk => ?_⟩
    cases k with
    | zero => exact ⟨s, rfl, hidle, hpending, by simp⟩
    | succ k =>
      obtain ⟨u, hu, hidle'', hpending'', htaken'⟩ := hrun k (Nat.le_of_succ_le_succ hk)
      exact ⟨u, (run_succ_of_step hstep k).trans hu, hidle'', hpending'', by simp [htaken', htaken]⟩

/-- Settles O57: an edge that neither resets nor completes a command writes only PHASE and the host's list. -/
theorem commandsAreAtomicAtThePorts : Obligations.CommandsAreAtomicAtThePorts := by
  intro c c' p h
  obtain ⟨-, heffect⟩ := edge_effect h
  cases heffect with
  | reset hr => exact .inl hr
  | completes _ hp _ he => exact .inr (.inl ⟨_, hp, he⟩)
  | transfers | stays =>
    refine .inr (.inr ?_)
    rw [settled_eq c]
    exact ⟨rfl, rfl, rfl, rfl, rfl, rfl, rfl⟩
  | _ => exact .inr (.inr ⟨rfl, rfl, rfl, rfl, rfl, rfl, rfl⟩)

end Sys2Proof.Proofs
end

section
/-! PROOFS. The decoder undoes the encoder, and read by opcode it is a choice of the command and a test of the bits that its
format reserves (R73 to R77). -/

namespace Sys2Proof

/-- Every command's word decodes to it: the opcode picks the command's arm, whose reserved bits are 0, and the fields hold the
operands. -/
theorem decode_encode (i : Instr) : decode (encode i) = .command i := by
  cases i with
  | nop | init | tchk | dig | wrd => simp [encode, decode, reservedFN]
  | stat => simp [encode, decode, reservedFS]
  | gen | trd | upd1 => simp [encode, decode, reservedF1]
  | twr | upd2 => simp [encode, decode, reservedF2]
  | ard => simp [encode, decode, reservedFH]
  | crd => simp [encode, decode, reservedFH0]
  | drd => simp [encode, decode, reservedFW]
  | upd3 | mix0 | mix1 | mix2 | mix3 | mix4 | mix5 | mix6 | mix7 => simp [encode, decode]

/-- Words with equal fields are equal (R72). -/
theorem word_eq_iff {w v : Word} : w = v ↔ opc w = opc v ∧ b2 w = b2 v ∧ b1 w = b1 v ∧ b0 w = b0 v := by
  refine ⟨fun h => by simp [h], fun ⟨h3, h2, h1, h0⟩ => ?_⟩
  rw [← pack_fields w, h3, h2, h1, h0, pack_fields]

section fields
variable (w v : Word)

@[simp] theorem opc_and : opc (w &&& v) = opc w &&& opc v := BitVec.extractLsb'_and
@[simp] theorem b2_and : b2 (w &&& v) = b2 w &&& b2 v := BitVec.extractLsb'_and
@[simp] theorem b1_and : b1 (w &&& v) = b1 w &&& b1 v := BitVec.extractLsb'_and
@[simp] theorem b0_and : b0 (w &&& v) = b0 w &&& b0 v := BitVec.extractLsb'_and
@[simp] theorem opc_or : opc (w ||| v) = opc w ||| opc v := BitVec.extractLsb'_or
@[simp] theorem b2_or : b2 (w ||| v) = b2 w ||| b2 v := BitVec.extractLsb'_or
@[simp] theorem b1_or : b1 (w ||| v) = b1 w ||| b1 v := BitVec.extractLsb'_or
@[simp] theorem b0_or : b0 (w ||| v) = b0 w ||| b0 v := BitVec.extractLsb'_or

end fields

/-- Operand bits of a word are all 0 exactly when they are 0 in each of its three operand fields. -/
theorem and_pack_eq_zero_iff (w : Word) (c b a : Byte) :
    w &&& pack 0 c b a = 0 ↔ b2 w &&& c = 0 ∧ b1 w &&& b = 0 ∧ b0 w &&& a = 0 := by
  have hzero : (0 : Word) = pack 0 0 0 0 := rfl
  rw [hzero, word_eq_iff]
  simp

@[simp] theorem and_255_eq_zero_iff {b : Byte} : b &&& 255#8 = 0#8 ↔ b = 0#8 := by revert b; decide

@[simp] theorem and_254_eq_zero_iff {b : Byte} : b &&& 254#8 = 0#8 ↔ highSeven b = 0#7 := by revert b; decide

@[simp] theorem and_248_eq_zero_iff {b : Byte} : b &&& 248#8 = 0#8 ↔ highFive b = 0#5 := by revert b; decide

/-! ### The reserved bits of each format, as the mask of R73 -/

section reserved
variable (w : Word)

theorem reservedFN_iff : reservedFN w = true ↔ w &&& 0x00FFFFFF = 0 :=
  Iff.trans (by simp [reservedFN, and_assoc]) (and_pack_eq_zero_iff w 0xFF 0xFF 0xFF).symm

theorem reservedFS_iff : reservedFS w = true ↔ w &&& 0x00FFFFFE = 0 :=
  Iff.trans (by simp [reservedFS, and_assoc]) (and_pack_eq_zero_iff w 0xFF 0xFF 0xFE).symm

theorem reservedF1_iff : reservedF1 w = true ↔ w &&& 0x00FFFF00 = 0 :=
  Iff.trans (by simp [reservedF1]) (and_pack_eq_zero_iff w 0xFF 0xFF 0).symm

theorem reservedF2_iff : reservedF2 w = true ↔ w &&& 0x00FF0000 = 0 :=
  Iff.trans (by simp [reservedF2]) (and_pack_eq_zero_iff w 0xFF 0 0).symm

theorem reservedFH_iff : reservedFH w = true ↔ w &&& 0x00FFFE00 = 0 :=
  Iff.trans (by simp [reservedFH]) (and_pack_eq_zero_iff w 0xFF 0xFE 0).symm

theorem reservedFH0_iff : reservedFH0 w = true ↔ w &&& 0x00FFFEFF = 0 :=
  Iff.trans (by simp [reservedFH0, and_assoc]) (and_pack_eq_zero_iff w 0xFF 0xFE 0xFF).symm

theorem reservedFW_iff : reservedFW w = true ↔ w &&& 0x00FFFFF8 = 0 :=
  Iff.trans (by simp [reservedFW, and_assoc]) (and_pack_eq_zero_iff w 0xFF 0xFF 0xF8).symm

end reserved

open Sys2Proof.Spec

/-- The row of the match and mask table that R73 and R75 give an opcode: the mask keeps the opcode and the reserved bits, and
the pattern has them at the opcode and at 0. -/
def opcodeRow (n : Nat) : MatchRow := ⟨pack (BitVec.ofNat 8 n) 0 0 0, pack 0xFF 0 0 0 ||| reservedBits n⟩

/-- What a word with the opcode `n` decodes to: `i` if the bits that the format reserves are 0, else illegal (R77). -/
structure DecodesWith (w : Word) (n : Nat) (i : Instr) (d : Decoded) : Prop where
  reserved : d = if w &&& reservedBits n = 0#32 then .command i else .illegal .reservedBit
  row : matchRow i = opcodeRow n
  assigned : unassigned n = false

theorem DecodesWith.eq_command_iff {w : Word} {n : Nat} {i j : Instr} {d : Decoded} (h : DecodesWith w n i d) :
    d = .command j ↔ w &&& reservedBits n = 0#32 ∧ i = j := by
  rw [h.reserved]
  split <;> simp [*]

theorem DecodesWith.eq_illegal_iff {w : Word} {n : Nat} {i : Instr} {d : Decoded} {why : IllegalWord}
    (h : DecodesWith w n i d) : d = .illegal why ↔ w &&& reservedBits n ≠ 0#32 ∧ .reservedBit = why := by
  rw [h.reserved]
  split <;> simp [*]

theorem ifReservedZero_of_iff {p : Bool} {P : Prop} [Decidable P] (h : p = true ↔ P) (i : Instr) :
    ifReservedZero p i = if P then .command i else .illegal .reservedBit := by
  simp only [ifReservedZero, h]

/-- The decoder by opcode: each arm is one opcode, with its format's reserved bits (R75 to R77). -/
theorem decode_by_opcode (w : Word) :
    (unassigned (opc w).toNat = true ∧ decode w = .illegal .unassignedOpcode) ∨
      ∃ i, DecodesWith w (opc w).toNat i (decode w) := by
  have hlt := (opc w).isLt
  unfold decode
  generalize (opc w).toNat = n at hlt
  split
  case h_24 =>
    refine .inl ⟨?_, rfl⟩
    simp only [imp_false] at *
    simp [unassigned]
    omega
  case h_1 | h_2 | h_7 | h_11 | h_15 => exact .inr ⟨_, ifReservedZero_of_iff (reservedFN_iff w) _, rfl, rfl⟩
  case h_3 => exact .inr ⟨_, ifReservedZero_of_iff (reservedFS_iff w) _, rfl, rfl⟩
  case h_4 | h_6 | h_8 => exact .inr ⟨_, ifReservedZero_of_iff (reservedF1_iff w) _, rfl, rfl⟩
  case h_5 | h_9 => exact .inr ⟨_, ifReservedZero_of_iff (reservedF2_iff w) _, rfl, rfl⟩
  case h_12 => exact .inr ⟨_, ifReservedZero_of_iff (reservedFW_iff w) _, rfl, rfl⟩
  case h_13 => exact .inr ⟨_, ifReservedZero_of_iff (reservedFH_iff w) _, rfl, rfl⟩
  case h_14 => exact .inr ⟨_, ifReservedZero_of_iff (reservedFH0_iff w) _, rfl, rfl⟩
  case h_10 | h_16 | h_17 | h_18 | h_19 | h_20 | h_21 | h_22 | h_23 =>
    exact .inr ⟨_, (if_pos BitVec.and_zero).symm, rfl, rfl⟩

end Sys2Proof
end

section
/-! PROOFS. The match and mask table has one row per assigned opcode, so a command's row matches its words and no others (R75,
R76). -/

namespace Sys2Proof

open Sys2Proof.Spec

theorem opc_reservedBits (n : Nat) : opc (reservedBits n) = 0 := by
  unfold reservedBits
  split_ifs <;> rfl

/-- A word matches an opcode's row exactly when it has the opcode and its reserved bits are 0. -/
theorem hits_opcodeRow_iff (w : Word) {n : Nat} (hn : n < 256) :
    (opcodeRow n).hits w = true ↔ (opc w).toNat = n ∧ w &&& reservedBits n = 0 := by
  have hopc : opc w &&& 255#8 = opc w := BitVec.and_allOnes
  have hnat : opc w = BitVec.ofNat 8 n ↔ (opc w).toNat = n := by
    rw [← BitVec.toNat_inj, BitVec.toNat_ofNat, Nat.mod_eq_of_lt hn]
  have hzero : (0 : Word) = pack 0 0 0 0 := rfl
  rw [MatchRow.hits, opcodeRow, beq_iff_eq, word_eq_iff, hzero, word_eq_iff]
  simp [opc_reservedBits, hopc, hnat]

/-- The 23 opcodes of R75: those that are not unassigned. -/
def assignedOpcodes : List Nat := (List.range 256).filter fun n => !unassigned n

theorem mem_assignedOpcodes {n : Nat} : n ∈ assignedOpcodes ↔ n < 256 ∧ unassigned n = false := by
  simp [assignedOpcodes]

theorem nodup_assignedOpcodes : assignedOpcodes.Nodup := List.nodup_range.filter _

/-- R75's table is the rows of its opcodes, one row for each. -/
theorem matchTable_eq : matchTable = assignedOpcodes.map opcodeRow := by rfl

theorem filter_hits_eq (w : Word) :
    matchTable.filter (fun r => r.hits w) =
    (assignedOpcodes.filter fun n => (opcodeRow n).hits w).map opcodeRow := by
  rw [matchTable_eq, List.filter_map]
  rfl

/-- An illegal word has an unassigned opcode or a reserved bit that is 1, and every row tests for both (R77). -/
theorem filter_hits_of_illegal {w : Word} {why : IllegalWord} (h : decode w = .illegal why) :
    matchTable.filter (fun r => r.hits w) = [] := by
  rw [filter_hits_eq, List.map_eq_nil_iff, List.filter_eq_nil_iff]
  intro n hn hhit
  obtain ⟨hlt, hassigned⟩ := mem_assignedOpcodes.mp hn
  obtain ⟨rfl, hzero⟩ := (hits_opcodeRow_iff w hlt).mp hhit
  obtain ⟨hun, -⟩ | ⟨i, hi⟩ := decode_by_opcode w
  · simp [hassigned] at hun
  · exact (hi.eq_illegal_iff.mp h).1 hzero

/-- A command's word matches the row of its opcode, and every other row has another opcode. -/
theorem filter_hits_of_command {w : Word} {i : Instr} (h : decode w = .command i) :
    matchTable.filter (fun r => r.hits w) = [matchRow i] := by
  obtain ⟨-, hill⟩ | ⟨j, hj⟩ := decode_by_opcode w
  · simp [hill] at h
  obtain ⟨hzero, rfl⟩ := hj.eq_command_iff.mp h
  have hmem : (opc w).toNat ∈ assignedOpcodes := mem_assignedOpcodes.mpr ⟨(opc w).isLt, hj.assigned⟩
  have hone : assignedOpcodes.filter (fun n => (opcodeRow n).hits w) = [(opc w).toNat] := by
    calc _ = assignedOpcodes.filter (· == (opc w).toNat) := List.filter_congr fun n hn => by
          rw [Bool.eq_iff_iff, hits_opcodeRow_iff w (mem_assignedOpcodes.mp hn).1, beq_iff_eq]
          exact ⟨fun h => h.1.symm, fun h => ⟨h.symm, h ▸ hzero⟩⟩
      _ = [(opc w).toNat] := by
          rw [List.filter_beq, List.count_eq_one_of_mem nodup_assignedOpcodes hmem]
          rfl
  rw [filter_hits_eq, hone, hj.row]
  rfl

end Sys2Proof
end

section
/-! PROOFS. The words of assembly lines, in numbers (R80), and the commands of the pseudo-instruction UPD (R81). -/

namespace Sys2Proof.Machine

/-- A packed word as a number (R72). -/
theorem toNat_pack (o c b a : Byte) :
    (pack o c b a).toNat = o.toNat * 16777216 + c.toNat * 65536 + b.toNat * 256 + a.toNat := by
  have hc := c.isLt
  have hb := b.isLt
  have ha := a.isLt
  simp only [pack, BitVec.toNat_append]
  rw [← Nat.shiftLeft_add_eq_or_of_lt hc, ← Nat.shiftLeft_add_eq_or_of_lt hb, ← Nat.shiftLeft_add_eq_or_of_lt ha]
  simp only [Nat.shiftLeft_eq]
  omega

theorem pack_ofNat (o : Nat) {c b a : Nat} (hc : c < 256) (hb : b < 256) (ha : a < 256) :
    pack (BitVec.ofNat 8 o) (BitVec.ofNat 8 c) (BitVec.ofNat 8 b) (BitVec.ofNat 8 a) =
      BitVec.ofNat 32 (o * 16777216 + c * 65536 + b * 256 + a) := by
  apply BitVec.eq_of_toNat_eq
  rw [toNat_pack]
  simp only [BitVec.toNat_ofNat]
  omega

theorem bitByte_ofNat {h : Nat} (hh : h < 2) : bitByte (h == 1) = BitVec.ofNat 8 h := by
  interval_cases h <;> rfl

theorem octalByte_ofNat {w : Nat} (hw : w < 8) : octalByte (BitVec.ofNat 3 w) = BitVec.ofNat 8 w := by
  interval_cases w <;> rfl

theorem encode_mixInstr {n : Nat} (hn : n < 8) (a b c : Byte) :
    encode (mixInstr n a b c) = pack (BitVec.ofNat 8 (0x20 + n)) c b a := by
  interval_cases n <;> rfl

theorem assembleWords_eq (line : AsmLine) :
    assembleWords line = if line.wellFormed then some ((expand line).map encode) else none := by
  unfold assembleWords assemble
  split <;> rfl

/-- A line of one command: if its operands fit, the word whose four fields are the numbers `o`, `c`, `b` and `a`, and nothing
otherwise (R80). -/
theorem assembleWords_of_fields {line : AsmLine} {i : Instr} {P : Prop} [Decidable P] (o c b a : Nat) {word : Nat}
    (hexpand : expand line = [i])
    (hencode : P → encode i = pack (BitVec.ofNat 8 o) (BitVec.ofNat 8 c) (BitVec.ofNat 8 b) (BitVec.ofNat 8 a))
    (hfits : line.wellFormed = true ↔ P := by simp [AsmLine.wellFormed, fitsByte, fitsBit, fitsOctal, and_assoc])
    (hword : P → c < 256 ∧ b < 256 ∧ a < 256 ∧ word = o * 16777216 + c * 65536 + b * 256 + a := by omega) :
    assembleWords line = if P then some [BitVec.ofNat 32 word] else none := by
  simp only [assembleWords_eq, hfits]
  split
  case isTrue h =>
    obtain ⟨hc, hb, ha, rfl⟩ := hword h
    rw [hexpand, List.map_singleton, hencode h, pack_ofNat o hc hb ha]
  case isFalse => rfl

/-- The bytes in order (R81, R52). -/
theorem packUpdates_inputBytes (bytes : List Nat) :
    (packUpdates bytes).flatMap inputBytes = bytes.map (BitVec.ofNat 8) := by
  induction bytes using packUpdates.induct with
  | case1 | case2 | case3 => rfl
  | case4 d0 d1 d2 rest ih => simp [packUpdates, inputBytes, ih]

theorem packUpdates_length (bytes : List Nat) : (packUpdates bytes).length = (bytes.length + 2) / 3 := by
  induction bytes using packUpdates.induct with
  | case1 | case2 | case3 => simp [packUpdates]
  | case4 d0 d1 d2 rest ih => simp [packUpdates, ih]; omega

/-- Only a last, shorter command carries fewer than three bytes (R81). -/
theorem packUpdates_take (bytes : List Nat) :
    ((packUpdates bytes).take (bytes.length / 3)).all (fun i => (inputBytes i).length == 3) = true := by
  induction bytes using packUpdates.induct with
  | case1 | case2 | case3 => simp
  | case4 d0 d1 d2 rest ih =>
    have hlength : (d0 :: d1 :: d2 :: rest).length / 3 = rest.length / 3 + 1 := by simp only [List.length_cons]; omega
    rw [hlength, packUpdates, List.take_succ_cons, List.all_cons, ih]
    rfl

end Sys2Proof.Machine
end

section
/-! PROOFS. What stops a step: a protocol violation of the host, or a response with the reserved status (R260, R71). -/

namespace Sys2Proof.Machine

/-- A state that presents only a legal response moves on by itself (R252, R256). -/
theorem proceed_next {s : State} (h : phaseLegal s = true) : ∃ t, proceed s = .next t := by
  unfold proceed
  cases hp : s.phase with
  | resetInit | idle => exact ⟨_, rfl⟩
  | busy w =>
    obtain ⟨st, data, u, -, -, -, -, -, hfinish⟩ := finish_next w s
    exact ⟨_, hfinish⟩
  | rspPending r =>
    have hlegal : r.legal = true := by simpa [phaseLegal, hp] using h
    exact ⟨_, deliver_rspPending hp (Response.status_ne_reserved hlegal)⟩

/-- A response with the reserved status is a fault when it is handed over (R71, I6). -/
theorem proceed_reserved {s : State} {r : Response} (hp : s.phase = .rspPending r) (hr : r.status = .reserved) :
    proceed s = .fault .reservedStatus := by
  simp [proceed, deliver, hp, hr]

theorem step_next_or_violation {s : State} (h : phaseLegal s = true) :
    (∃ t, step s = .next t) ∨
      ∃ v rest, s.pending = .violation v :: rest ∧ step s = .refused (.protocolViolation v) := by
  cases hpending : s.pending with
  | nil => exact .inl (step_nothing hpending ▸ proceed_next h)
  | cons e rest =>
    cases e with
    | rst => exact .inl ⟨_, step_rst hpending⟩
    | violation v => exact .inr ⟨v, rest, rfl, step_violation hpending⟩
    | cmd w =>
      by_cases hidle : s.phase = .idle
      · obtain ⟨r, t, hstep, -⟩ := step_takes_response hidle hpending
        exact .inl ⟨t, hstep⟩
      · exact .inl (step_cmd_waits hidle hpending ▸ proceed_next h)

end Sys2Proof.Machine
end

section
namespace Sys2Proof.Proofs

open Sys2Proof.Machine Sys2Proof.Spec

/-- Settles O2: by cases on the command, its format's reserved bits and fields. -/
theorem decodeOfEncode : Obligations.DecodeOfEncode := decode_encode

/-- Settles O3: the decoder reads every field of a word or checks that it is 0. -/
theorem encodeOfDecode : Obligations.EncodeOfDecode := fun _ _ => encode_of_decode

/-- Settles O4: the table holds one row for each assigned opcode, and a row reads the opcode and its reserved bits. -/
theorem decodeIsTheMatchTable : Obligations.DecodeIsTheMatchTable := by
  intro w
  cases h : decode w with
  | command i => exact .inl ⟨i, rfl, filter_hits_of_command h, execWord_command h⟩
  | illegal why => exact .inr ⟨why, rfl, filter_hits_of_illegal h, execWord_illegal h⟩

/-- Settles O5: the opcode decides the first reason, the reserved bits of an assigned opcode the second. -/
theorem illegalWordsAreThese : Obligations.IllegalWordsAreThese := by
  refine ⟨rfl, fun w => ?_⟩
  obtain ⟨hun, hill⟩ | ⟨i, hi⟩ := decode_by_opcode w
  · exact ⟨by simp [hun, hill], by simp [hun, hill], fun _ s h => execWord_illegal h s⟩
  · exact ⟨by simp [hi.eq_illegal_iff, hi.assigned], by simp [hi.eq_illegal_iff, hi.assigned],
      fun _ s h => execWord_illegal h s⟩

/-- Settles O1: the decoder runs on each of the twelve words. -/
theorem sampleWordsDecode : Obligations.SampleWordsDecode := by
  unfold Obligations.SampleWordsDecode
  decide

/-- Settles O6: each line's word is packed from its opcode and operands, which are the bytes of a number. -/
theorem assemblyWordsAndMisfits : Obligations.AssemblyWordsAndMisfits := by
  intro x y z n
  exact ⟨assembleWords_of_fields 0x08 0 0 x rfl fun _ => rfl,
    assembleWords_of_fields 0x09 0 y x rfl fun _ => rfl,
    assembleWords_of_fields 0x0A 0 0 x rfl fun _ => rfl,
    assembleWords_of_fields 0x11 0 0 x rfl fun _ => rfl,
    assembleWords_of_fields 0x12 0 y x rfl fun _ => rfl,
    assembleWords_of_fields 0x13 z y x rfl fun _ => rfl,
    assembleWords_of_fields 0x19 0 0 x rfl fun h => congrArg (pack 0x19 0 0) (octalByte_ofNat h),
    assembleWords_of_fields 0x1A 0 y x rfl fun h => congrArg (pack 0x1A 0 · _) (bitByte_ofNat h.2),
    assembleWords_of_fields 0x1B 0 y 0 rfl fun h => congrArg (pack 0x1B 0 · 0) (bitByte_ofNat h),
    assembleWords_of_fields 0x02 0 0 x rfl fun h => congrArg (pack 0x02 0 0) (bitByte_ofNat h),
    assembleWords_of_fields (0x20 + n) z y x rfl fun h => encode_mixInstr h.1 _ _ _⟩

/-- Settles O7: by induction along `packUpdates`, which takes three bytes at a time. -/
theorem updPseudoCarriesTheBytes : Obligations.UpdPseudoCarriesTheBytes := by
  intro bytes hne hfits
  have hwf : (AsmLine.upd bytes).wellFormed = true := by simpa [AsmLine.wellFormed, fitsByte, hne] using hfits
  exact ⟨packUpdates bytes, if_pos hwf, packUpdates_inputBytes bytes, packUpdates_length bytes, packUpdates_take bytes⟩

/-- Settles O53: every word completes, and under the invariant the response handed over is not the reserved one. -/
theorem onlyProtocolViolationsStop : Obligations.OnlyProtocolViolationsStop := by
  refine ⟨fun s h => step_next_or_violation h.presented, fun s r hp hr hpending => ?_⟩
  have hstep : step s = proceed s := by
    obtain hnone | ⟨w, rest, hcmd⟩ := hpending
    · exact step_nothing hnone
    · exact step_cmd_waits (by simp [hp]) hcmd
  rw [hstep, proceed_reserved hp hr]

end Sys2Proof.Proofs
end

section
/-! PROOFS. The collision scan of R100: it ends at the first value of the cyclic sequence that is not placed (R101(b)), and so
do the loop with its index written out and the search in a `used` vector. -/

namespace Sys2Proof.Machine

open Sys2Proof.Spec

/-- `(j + d) mod 256` is the first value of the cyclic sequence `j, j+1, …` that is not placed (R101(b)). -/
def FirstFreeAt (placed : List Nat) (j d : Nat) : Prop :=
  (j + d) % 256 ∉ placed ∧ ∀ e < d, (j + e) % 256 ∈ placed

theorem FirstFreeAt.tail {placed : List Nat} {j d : Nat} (h : FirstFreeAt placed j (d + 1)) :
    FirstFreeAt placed ((j + 1) % 256) d := by
  have hshift (e : Nat) : ((j + 1) % 256 + e) % 256 = (j + (e + 1)) % 256 := by omega
  exact ⟨hshift d ▸ h.1, fun e he => hshift e ▸ h.2 (e + 1) (by omega)⟩

theorem FirstFreeAt.head {placed : List Nat} {j d : Nat} (h : FirstFreeAt placed j (d + 1)) (hj : j < 256) : j ∈ placed := by
  simpa [Nat.mod_eq_of_lt hj] using h.2 0 (by omega)

theorem FirstFreeAt.not_mem {placed : List Nat} {j : Nat} (h : FirstFreeAt placed j 0) (hj : j < 256) : j ∉ placed := by
  simpa [Nat.mod_eq_of_lt hj] using h.1

/-- Fewer than 256 placed values leave one of the 256 byte values free (R102). -/
theorem exists_free {placed : List Nat} (h : placed.length < 256) : ∃ v < 256, v ∉ placed := by
  by_contra! hall
  have hsub : List.range 256 ⊆ placed := fun v hv => hall v (List.mem_range.mp hv)
  have hlen := (List.subperm_of_subset List.nodup_range hsub).length_le
  rw [List.length_range] at hlen
  omega

theorem exists_firstFreeAt {placed : List Nat} (h : placed.length < 256) {j : Nat} (hj : j < 256) :
    ∃ d < 256, FirstFreeAt placed j d := by
  obtain ⟨v, hv, hfree⟩ := exists_free h
  have hreach : (j + (v + 256 - j) % 256) % 256 ∉ placed := by
    rwa [show (j + (v + 256 - j) % 256) % 256 = v by omega]
  have hex : ∃ d, (j + d) % 256 ∉ placed := ⟨_, hreach⟩
  exact ⟨Nat.find hex, (Nat.find_min' hex hreach).trans_lt (Nat.mod_lt _ (by omega)), Nat.find_spec hex,
    fun e he => not_not.mp (Nat.find_min hex he)⟩

theorem collides_iff (j : Nat) (placed : List Nat) : collides j placed = true ↔ j ∈ placed := by
  induction placed with
  | nil => simp [collides]
  | cons t rest ih => simp [collides, ih]

theorem scan_eq_of_firstFreeAt {placed : List Nat} {d n j : Nat} (h : FirstFreeAt placed j d) (hd : d ≤ n) (hj : j < 256) :
    scan placed n j = (j + d) % 256 := by
  induction d generalizing n j with
  | zero => cases n <;> simp [scan, collides_iff, h.not_mem hj, Nat.mod_eq_of_lt hj]
  | succ d ih =>
    obtain ⟨n, rfl⟩ : ∃ m, n = m + 1 := ⟨n - 1, by omega⟩
    rw [scan, if_pos ((collides_iff ..).mpr (h.head hj)), ih h.tail (by omega) (by omega)]
    omega

/-- R101(b). -/
theorem scan_firstFreeAt {placed : List Nat} (h : placed.length < 256) {j : Nat} (hj : j < 256) :
    ∃ d < 256, FirstFreeAt placed j d ∧ scan placed 256 j = (j + d) % 256 := by
  obtain ⟨d, hd, hfree⟩ := exists_firstFreeAt h hj
  exact ⟨d, hd, hfree, scan_eq_of_firstFreeAt hfree hd.le hj⟩

/-- With `j` not placed, the loop runs to its end and leaves `j` as it is. -/
theorem scanLoop_of_not_mem {t : List Nat} {j : Nat} (h : j ∉ t) (fuel k : Nat) : scanLoop t fuel j k = j := by
  induction fuel generalizing k with
  | zero => rfl
  | succ fuel ih =>
    rw [scanLoop]
    split
    · next hk =>
      have hne : j ≠ t.getD k 0 := fun e => h (by simp [e, hk])
      rw [if_neg hne, ih]
    · rfl

/-- With `j` placed in slot `k` or later, the loop restarts with `j + 1`, after one turn for each slot from `k` at most. -/
theorem scanLoop_restarts {t : List Nat} {j fuel k : Nat} (h : j ∈ t.drop k) (hfuel : t.length ≤ fuel + k) :
    ∃ rest, fuel + k ≤ rest + t.length ∧ scanLoop t fuel j k = scanLoop t rest ((j + 1) % 256) 0 := by
  induction fuel generalizing k with
  | zero =>
    rw [List.drop_eq_nil_of_le (by omega)] at h
    cases h
  | succ fuel ih =>
    have hk : k < t.length := by simpa using List.length_pos_of_mem h
    rw [scanLoop, if_pos hk]
    split
    · exact ⟨fuel, by omega, rfl⟩
    · next hne =>
      rw [List.drop_eq_getElem_cons hk] at h
      have hdrop : j ∈ t.drop (k + 1) := (List.mem_cons.mp h).resolve_left (by simpa [hk] using hne)
      obtain ⟨rest, hrest, heq⟩ := ih hdrop (by omega)
      exact ⟨rest, by omega, heq⟩

theorem scanLoop_eq_of_firstFreeAt {t : List Nat} {d fuel j : Nat} (h : FirstFreeAt t j d) (hfuel : d * t.length ≤ fuel)
    (hj : j < 256) : scanLoop t fuel j 0 = (j + d) % 256 := by
  induction d generalizing fuel j with
  | zero => rw [scanLoop_of_not_mem (h.not_mem hj), Nat.add_zero, Nat.mod_eq_of_lt hj]
  | succ d ih =>
    rw [Nat.succ_mul] at hfuel
    obtain ⟨rest, hrest, heq⟩ := scanLoop_restarts (fuel := fuel) (k := 0) (h.head hj) (by omega)
    rw [heq, ih h.tail (by omega) (by omega)]
    omega

/-- The loop of R100 with its index is the scan: at most 255 restarts, each after at most 255 slots. -/
theorem scanLoop_eq_scan {placed : List Nat} (h : placed.length < 256) {j : Nat} (hj : j < 256) :
    scanLoop placed 66000 j 0 = scan placed 256 j := by
  obtain ⟨d, hd, hfree, hscan⟩ := scan_firstFreeAt h hj
  have hturns : d * placed.length ≤ 255 * 255 := Nat.mul_le_mul (by omega) (by omega)
  rw [hscan, scanLoop_eq_of_firstFreeAt hfree (by omega) hj]

/-- The bits of `used` are the placed values (R101(b)). -/
def Marks (used : Nat) (placed : List Nat) : Prop := ∀ v, used.testBit v = true ↔ v ∈ placed

theorem Marks.place {used : Nat} {placed : List Nat} (h : Marks used placed) (v : Nat) :
    Marks (used ||| 1 <<< v) (placed ++ [v]) := by
  intro x
  simp [Nat.one_shiftLeft, Nat.testBit_two_pow, h x, eq_comm (a := v)]

theorem firstFree_eq_scan {used : Nat} {placed : List Nat} (h : Marks used placed) (n j : Nat) :
    firstFree used n j = scan placed n j := by
  induction n generalizing j with
  | zero => rfl
  | succ n ih => simp only [firstFree, scan, h j, collides_iff, ih]

end Sys2Proof.Machine
end

section
/-! PROOFS. The generator of R100 slot by slot, and the used-vector generator of R101. -/

namespace Sys2Proof.Machine

theorem doubleFold_lt {j : Nat} (h : j < 256) : doubleFold j < 256 := by
  unfold doubleFold
  split <;> omega

/-- R101(a): `j >>> 7` is the bit that a rotate-left carries around, 1 exactly when `2j` is folded. -/
theorem doubleFold_eq_rotl8 {j : Nat} (h : j < 256) : doubleFold j = rotl8 j := by
  have hcarry : j >>> 7 < 2 ^ 1 := by rw [Nat.shiftRight_eq_div_pow]; omega
  have hor : j <<< 1 ||| j >>> 7 = 2 * j + j / 128 := by
    rw [Nat.shiftLeft_eq, Nat.mul_comm, ← Nat.two_pow_add_eq_or_of_lt hcarry, Nat.shiftRight_eq_div_pow]
  unfold rotl8 doubleFold
  rw [hor]
  split
  · rw [show j / 128 = 1 by omega]; omega
  · rw [show j / 128 = 0 by omega]; omega

/-- The value placed is a byte's value, and the scan leaves every placed value behind (R100). -/
theorem nextValue_free (seed j : Nat) {placed : List Nat} (h : placed.length < 256) :
    nextValue seed j placed < 256 ∧ nextValue seed j placed ∉ placed := by
  obtain ⟨d, -, hfree, hscan⟩ := scan_firstFreeAt h (doubleFold_lt (Nat.mod_lt (j * seed + 1) (by decide)))
  rw [nextValue, hscan]
  exact ⟨Nat.mod_lt _ (by decide), hfree.1⟩

/-- What holds of no slots and is kept when the next slot is placed, from the value placed last, holds of all `n` more. -/
theorem fill_induction {P : List Nat → Prop} {seed : Nat}
    (place : ∀ placed, placed.length < 256 → P placed → P (placed ++ [nextValue seed (placed.getLastD 0) placed]))
    {n : Nat} {placed : List Nat} (hn : placed.length + n ≤ 256) (h : P placed) :
    P (fill seed n (placed.getLastD 0) placed) := by
  induction n generalizing placed with
  | zero => exact h
  | succ n ih =>
    have hrest := ih (by simp; omega) (place placed (by omega) h)
    rwa [List.getLastD_concat] at hrest

/-- What holds of the empty table and is kept by each placement holds of the 256 values of `gen(seed)`. -/
theorem genValues_induction {P : List Nat → Prop} (seed : Byte) (nil : P [])
    (place : ∀ placed, placed.length < 256 → P placed →
      P (placed ++ [nextValue seed.toNat (placed.getLastD 0) placed])) : P (genValues seed) := by
  unfold genValues
  exact fill_induction (placed := []) place (Nat.le_refl 256) nil

theorem genValues_lt (seed : Byte) : ∀ v ∈ genValues seed, v < 256 := by
  refine genValues_induction (P := fun l => ∀ v ∈ l, v < 256) seed (by simp) fun placed hlen h => ?_
  simpa [or_imp, forall_and, (nextValue_free _ _ hlen).1] using h

theorem genValues_nodup (seed : Byte) : (genValues seed).Nodup := by
  refine genValues_induction seed List.nodup_nil fun placed hlen h => ?_
  rw [← List.concat_eq_append]
  exact h.concat (nextValue_free _ _ hlen).2

/-- Each slot holds the next value after the slots before it (R100). -/
def FollowsRule (seed : Nat) (t : List Nat) : Prop :=
  ∀ i < t.length, t.getD i 0 = nextValue seed ((t.take i).getLastD 0) (t.take i)

theorem FollowsRule.place {seed : Nat} {placed : List Nat} (h : FollowsRule seed placed) :
    FollowsRule seed (placed ++ [nextValue seed (placed.getLastD 0) placed]) := by
  intro i hi
  rw [List.length_append, List.length_singleton] at hi
  rw [List.take_append_of_le_length (by omega)]
  obtain hlt | rfl : i < placed.length ∨ i = placed.length := by omega
  · rw [List.getD_append _ _ _ _ hlt, h i hlt]
  · simp

theorem genValues_followsRule (seed : Byte) : FollowsRule seed.toNat (genValues seed) :=
  genValues_induction seed (by simp [FollowsRule]) fun _ _ h => h.place

theorem getLastD_take {t : List Nat} {i : Nat} (h : i ≤ t.length) :
    (t.take i).getLastD 0 = if i = 0 then 0 else t.getD (i - 1) 0 := by
  cases i with
  | zero => rfl
  | succ i => simp [List.getLastD_eq_getLast?, List.getLast?_take, show i < t.length by omega]

@[simp] theorem gen_toList (seed : Byte) : (gen seed).toList = (genValues seed).map (BitVec.ofNat 8) := rfl

theorem entry_gen (seed i : Byte) : entry (gen seed) i = BitVec.ofNat 8 ((genValues seed).getD i.toNat 0) := by
  have hi : i.toNat < (genValues seed).length := genValues_length seed ▸ i.isLt
  simp [entry, gen, hi]

theorem gen_toList_toNat (seed : Byte) : (gen seed).toList.map BitVec.toNat = genValues seed := by
  rw [gen_toList, List.map_map, List.map_congr_left (g := id), List.map_id]
  intro v hv
  simp [Nat.mod_eq_of_lt (genValues_lt seed v hv)]

/-- The used-vector generator places what `fill` places, while `used` marks the placed slots (R101). -/
theorem fill_eq_append_fillUsed (seed : Nat) {n j used : Nat} {placed : List Nat} (h : Marks used placed) :
    fill seed n j placed = placed ++ fillUsed seed n j used := by
  induction n generalizing j used placed with
  | zero => simp [fill, fillUsed]
  | succ n ih =>
    have hnext : firstFree used 256 (rotl8 ((j * seed + 1) % 256)) = nextValue seed j placed := by
      rw [firstFree_eq_scan h, ← doubleFold_eq_rotl8 (Nat.mod_lt _ (by decide)), nextValue]
    simp only [fill, fillUsed, hnext]
    rw [ih (h.place _), List.append_assoc, List.singleton_append]

theorem genValues_eq_genUsedValues (seed : Byte) : genValues seed = genUsedValues seed := by
  unfold genValues genUsedValues
  rw [fill_eq_append_fillUsed (used := 0) _ (by simp [Marks]), List.nil_append]

end Sys2Proof.Machine
end

section
/-! PROOFS. Seeds 0 and 128 (R103): every slot starts from 2 or 3 and takes the value after the slot before it. -/

namespace Sys2Proof.Machine

/-- The first `n` values of the table `TRAN[i] = (i + 2) mod 256`. -/
def consecutive (n : Nat) : List Nat := (List.range n).map fun i => (i + 2) % 256

@[simp] theorem consecutive_length (n : Nat) : (consecutive n).length = n := by simp [consecutive]

theorem mem_consecutive {n v : Nat} : v ∈ consecutive n ↔ ∃ i < n, (i + 2) % 256 = v := by simp [consecutive]

theorem consecutive_succ (n : Nat) : consecutive (n + 1) = consecutive n ++ [(n + 2) % 256] := by
  simp [consecutive, List.range_succ]

/-- A scan that starts inside the run of placed values ends just past the run. -/
theorem scan_consecutive {n k : Nat} (hk : k ≤ n) (hn : n < 256) (hk' : k + 2 < 256) :
    scan (consecutive n) 256 (k + 2) = (n + 2) % 256 := by
  have hfree : FirstFreeAt (consecutive n) (k + 2) (n - k) := by
    refine ⟨fun hmem => ?_, fun e he => mem_consecutive.mpr ⟨k + e, by omega, by omega⟩⟩
    obtain ⟨i, hi, heq⟩ := mem_consecutive.mp hmem
    omega
  rw [scan_eq_of_firstFreeAt hfree (by omega) hk']
  omega

theorem nextValue_consecutive {seed : Nat} (hseed : seed = 0 ∨ seed = 128) {n : Nat} (hn : n < 256) :
    nextValue seed ((consecutive n).getLastD 0) (consecutive n) = (n + 2) % 256 := by
  have hstart : ∃ k ≤ n, k ≤ 1 ∧ doubleFold (((consecutive n).getLastD 0 * seed + 1) % 256) = k + 2 := by
    cases n with
    | zero => exact ⟨0, by simp [consecutive, doubleFold]⟩
    | succ n =>
      rw [consecutive_succ, List.getLastD_concat]
      obtain rfl | rfl := hseed
      · exact ⟨0, by simp [doubleFold]⟩
      · refine ⟨n % 2, by omega, by omega, ?_⟩
        unfold doubleFold
        split <;> omega
  obtain ⟨k, hkn, hk, hj⟩ := hstart
  rw [nextValue, hj, scan_consecutive hkn hn (by omega)]

theorem genValues_consecutive {seed : Byte} (hseed : seed.toNat = 0 ∨ seed.toNat = 128) :
    genValues seed = consecutive 256 := by
  have hrun : genValues seed = consecutive (genValues seed).length := by
    refine genValues_induction (P := fun t => t = consecutive t.length) seed rfl fun placed hlen h => ?_
    rw [List.length_append, List.length_singleton, consecutive_succ, ← h, ← nextValue_consecutive hseed hlen, ← h]
  rwa [genValues_length] at hrun

end Sys2Proof.Machine
end

section
/-! PROOFS. Tables whose entries differ pairwise are the permutations of the 256 bytes (R102), and what TCHK says of a table
(R106). -/

namespace Sys2Proof.Machine

/-- Every byte once, in increasing order. -/
def allBytes : List Byte := (List.range 256).map (BitVec.ofNat 8)

@[simp] theorem allBytes_length : allBytes.length = 256 := by simp [allBytes]

theorem mem_allBytes (b : Byte) : b ∈ allBytes :=
  List.mem_map.mpr ⟨b.toNat, List.mem_range.mpr b.isLt, BitVec.ofNat_toNat ..⟩

/-- 256 bytes that differ pairwise are all the bytes, in some order (R102). -/
theorem perm_allBytes {l : List Byte} (hnodup : l.Nodup) (hlen : l.length = 256) : l.Perm allBytes :=
  (List.subperm_of_subset hnodup fun b _ => mem_allBytes b).perm_of_length_le (by simp [hlen])

theorem foldl_xor_allBytes : allBytes.foldl (· ^^^ ·) 0 = 0 := by decide +kernel

theorem tableXor_of_nodup {T : Vector Byte 256} (h : T.toList.Nodup) : tableXor T = 0 := by
  have hcomm : RightCommutative (fun x y : Byte => x ^^^ y) := ⟨fun x y z => by
    rw [BitVec.xor_assoc, BitVec.xor_comm y z, ← BitVec.xor_assoc]⟩
  rw [tableXor, (perm_allBytes h (by simp)).foldl_eq, foldl_xor_allBytes]

theorem nodup_toList_iff (T : Vector Byte 256) : T.toList.Nodup ↔ ∀ i k : Fin 256, i < k → T[i] ≠ T[k] := by
  rw [List.nodup_iff_pairwise_ne, List.pairwise_iff_getElem]
  constructor
  · intro h i k hik
    simpa using h i.val k.val (by simp) (by simp) hik
  · intro h i k hi hk hik
    simpa using h ⟨i, by simpa using hi⟩ ⟨k, by simpa using hk⟩ hik

theorem gen_nodup (seed : Byte) : (gen seed).toList.Nodup := by
  refine List.Nodup.of_map BitVec.toNat ?_
  rw [gen_toList_toNat]
  exact genValues_nodup seed

theorem getLsbD_checkWord (T : Vector Byte 256) {i : Nat} (hi : i < 32) :
    (checkWord T).getLsbD i = if i < 8 then (tableXor T).getLsbD i else (BitVec.ofBool (tablePerm T)).getLsbD (i - 8) := by
  rw [checkWord, BitVec.getLsbD_setWidth, BitVec.getLsbD_append, decide_eq_true hi, Bool.true_and]

theorem checkWord_xor (T : Vector Byte 256) : (checkWord T).extractLsb' 0 8 = tableXor T := by
  apply BitVec.eq_of_getLsbD_eq
  intro i hi
  rw [BitVec.getLsbD_extractLsb', getLsbD_checkWord T (by omega), if_pos (by omega)]
  simp [hi]

theorem checkWord_perm (T : Vector Byte 256) : (checkWord T).getLsbD 8 = tablePerm T := by
  rw [getLsbD_checkWord T (by decide), if_neg (by decide)]
  simp

theorem checkWord_high (T : Vector Byte 256) : (checkWord T).extractLsb' 9 23 = 0 := by
  apply BitVec.eq_of_getLsbD_eq
  intro i hi
  rw [BitVec.getLsbD_extractLsb', getLsbD_checkWord T (by omega), if_neg (by omega), BitVec.getLsbD_of_ge _ _ (by omega)]
  simp

/-- What TCHK reports of a permutation (R106, corner cases). -/
theorem checkWord_of_nodup {T : Vector Byte 256} (h : T.toList.Nodup) : checkWord T = 0x100 := by
  rw [checkWord, (tablePerm_iff T).mpr h, tableXor_of_nodup h]
  decide

theorem toNat_zext (b : Byte) : (zext b).toNat = b.toNat :=
  BitVec.toNat_setWidth_of_le (by decide)

end Sys2Proof.Machine
end

section
namespace Sys2Proof.Proofs

open Sys2Proof.Machine Sys2Proof.Spec

/-- Settles O12: the values follow the rule slot by slot, and the scan is the loop with its index. -/
theorem genFollowsTheLoop : Obligations.GenFollowsTheLoop := by
  intro seed i hi
  dsimp only
  rw [gen_toList_toNat]
  have hlen := genValues_length seed
  have htake : ((genValues seed).take i).length < 256 := by rw [List.length_take]; omega
  rw [genValues_followsRule seed i (by omega), getLastD_take (by omega), nextValue,
    ← scanLoop_eq_scan htake (doubleFold_lt (Nat.mod_lt _ (by decide)))]
  rfl

/-- Settles O13: both generators place the first free value from the same start, slot by slot. -/
theorem genReadingsAgree : Obligations.GenReadingsAgree := by
  refine ⟨fun j => doubleFold_eq_rotl8, fun placed j hlen hj => ?_, fun seed => ?_⟩
  · obtain ⟨d, hd, hfree, hscan⟩ := scan_firstFreeAt hlen hj
    exact ⟨d, hd, hscan, hfree⟩
  · rw [gen_toList, genValues_eq_genUsedValues]

/-- Settles O14: the scan leaves no value twice, and 256 different bytes are all the bytes. -/
theorem genIsAPermutation : Obligations.GenIsAPermutation := by
  intro seed
  have hperm := perm_allBytes (gen_nodup seed) (by simp [genValues_length])
  exact ⟨fun v => List.count_eq_one_of_mem (gen_nodup seed) (hperm.mem_iff.mpr (mem_allBytes v)),
    tableXor_of_nodup (gen_nodup seed)⟩

/-- Settles O15: such a table is a permutation of the bytes, and the order does not matter to the XOR. -/
theorem permutationXorsToZero : Obligations.PermutationXorsToZero :=
  fun T h => tableXor_of_nodup ((nodup_toList_iff T).mpr h)

/-- Settles O18: by the laws of an array write. -/
theorem twrResult : Obligations.TwrResult := by
  refine fun idx val s => ⟨setEntry s.tran idx val, exec_twr idx val s, fun i => ?_⟩
  rw [entry_setEntry, if_congr eq_comm rfl rfl]

/-- Settles O19: the response carries the entry, zero-extended. -/
theorem trdResult : Obligations.TrdResult := by
  refine fun idx s => ⟨zext (entry s.tran idx), exec_trd idx s, ?_⟩
  simp [toNat_zext, tableAt, entry, idx.isLt]

/-- Settles O20: by the bits of the check word. -/
theorem tchkResult : Obligations.TchkResult := by
  refine fun s => ⟨checkWord s.tran, exec_tchk s, checkWord_xor s.tran, ?_, checkWord_high s.tran⟩
  rw [checkWord_perm, tablePerm_iff, ← List.nodup_iff_pairwise_ne, nodup_toList_iff]

/-- Settles O21: the table that GEN loads is a permutation. -/
theorem tchkAfterGen : Obligations.TchkAfterGen := by
  intro seed s t h
  rw [exec_gen] at h
  cases h
  rw [exec_tchk, respond_tran, checkWord_of_nodup (gen_nodup seed)]
  rfl

/-- Settles O9: the generator was run on seed 53, and reset loads the listing. -/
theorem defaultTableIsGen53 : Obligations.DefaultTableIsGen53 := ⟨gen_53, reset_tran.trans gen_53.symm⟩

/-- Settles O16: for both seeds the slots hold consecutive values from 2 on. -/
theorem genOfSeedZero : Obligations.GenOfSeedZero := by
  refine ⟨fun i => ?_, Vector.toList_inj.mp ?_⟩
  · have hi : i.toNat < 256 := i.isLt
    apply BitVec.eq_of_toNat_eq
    rw [entry_gen, genValues_consecutive (.inl rfl)]
    simp [consecutive, hi, BitVec.toNat_add]
  · rw [gen_toList, gen_toList, genValues_consecutive (seed := 0) (.inl rfl),
      genValues_consecutive (seed := 128) (.inr rfl)]

/-- Settles O17: the command's arm is the statement. -/
theorem genResult : Obligations.GenResult := exec_gen

end Sys2Proof.Proofs
end

section
/-! PROOFS. The mixer: the byte formula read in exact integers (R130), and the arm the MIXn commands share (R132 to R139). -/

namespace Sys2Proof.Machine

open Sys2Proof.Spec

theorem tableAt_toNat (T : Vector Byte 256) (i : Byte) : tableAt T i.toNat = (entry T i).toNat := by
  have hi : i.toNat < 256 := i.isLt
  simp [tableAt, entry, hi]

/-- A slot number is below 256, so it is a byte as it stands. -/
theorem toNat_slotByte (n : Fin 8) : (slotByte n).toNat = n.val := by
  rw [slotByte, BitVec.toNat_ofNat, Nat.mod_eq_of_lt (by omega)]

/-- The multiplier of a slot, at most 15, does not wrap. -/
theorem toNat_slotMultiplier (n : Fin 8) : (2 * slotByte n + 1).toNat = 2 * n.val + 1 := by
  have hn := toNat_slotByte n
  bv_omega

/-- The arm of each MIXn, said once for the eight slots: the bucket of the slot, and nothing else (R132 to R139). -/
theorem exec_mixInstr (n : Fin 8) (a b c : Byte) (s : State) :
    exec (mixInstr n.val a b c) s = .next (respond .ok (zext (mix s.tran a b c n)) s) := by
  match n with
  | 0 | 1 | 2 | 3 | 4 | 5 | 6 | 7 => rfl

end Sys2Proof.Machine
end

section
namespace Sys2Proof.Proofs

open Sys2Proof.Machine Sys2Proof.Spec

/-- Settles O22: each of the three lookups is at the byte the rule names, and the byte operations around them are the
integer ones, reduced where they can pass 255. -/
theorem mixFormula : Obligations.MixFormula := by
  intro T a b c n
  have hp : tableAt T ((a.toNat + n.val) % 256) = (entry T (a + slotByte n)).toNat := by
    rw [← tableAt_toNat, BitVec.toNat_add, toNat_slotByte]
  have hq : tableAt T b.toNat * (2 * n.val + 1) % 256 = (entry T b * (2 * slotByte n + 1)).toNat := by
    rw [BitVec.toNat_mul, toNat_slotMultiplier, tableAt_toNat]
  have hr : tableAt T (c.toNat ^^^ tableAt T n.val) = (entry T (c ^^^ entry T (slotByte n))).toNat := by
    rw [← tableAt_toNat, BitVec.toNat_xor, ← tableAt_toNat, toNat_slotByte]
  rw [hp, hq, hr, mix, BitVec.toNat_add, BitVec.toNat_xor]

/-- Settles O23: the arm the eight commands share, at each slot. -/
theorem mixCommandResults : Obligations.MixCommandResults := fun a b c s =>
  ⟨exec_mixInstr 0 a b c s, exec_mixInstr 1 a b c s, exec_mixInstr 2 a b c s, exec_mixInstr 3 a b c s,
    exec_mixInstr 4 a b c s, exec_mixInstr 5 a b c s, exec_mixInstr 6 a b c s, exec_mixInstr 7 a b c s⟩

end Sys2Proof.Proofs
end

section
/-! PROOFS. What one absorbed byte adds to each bucket, row by row of the table of R151 (R150), and to the total of trigrams
(R158, R180). -/

namespace Sys2Proof.Machine

/-- The rows of R151 are the trigram slots in order, each with its gate and its bucket. -/
theorem trigramRows_eq (T : Vector Byte 256) (ch : Byte) (w : Vector WinSlot 4) :
    Spec.trigramRows T ch w = slots.map fun n => (gate w n, bucketOf T ch w n) := rfl

/-- Step 3 of R150 over some slots adds to a bucket one for every open gate whose trigram selects it. -/
theorem entry_trigrams (T : Vector Byte 256) (ch : Byte) (w : Vector WinSlot 4) (ns : List (Fin 8)) (acc : Vector Count 256)
    (i : Byte) :
    entry (ns.foldl (trigramStep T ch w) acc) i =
      entry acc i + BitVec.ofNat 64 (ns.countP fun n => gate w n && bucketOf T ch w n == i) := by
  induction ns generalizing acc with
  | nil => simp
  | cons n ns ih =>
    rw [List.foldl_cons, ih, entry_trigramStep, List.countP_cons]
    simp only [Bool.and_eq_true, beq_iff_eq]
    split
    · rw [BitVec.ofNat_add, BitVec.add_assoc, BitVec.add_comm (1 : Count)]
      rfl
    · rw [Nat.add_zero]

/-- The number of trigrams a byte adds, from the count before it (R158). -/
theorem total_succ (c : Nat) :
    total (c + 1) = total c + if c + 1 ≤ 2 then 0 else if c + 1 = 3 then 1 else if c + 1 = 4 then 3 else 8 := by
  unfold total
  split_ifs <;> omega

end Sys2Proof.Machine
end

section
/-! PROOFS. The elements that the stream engine works on, TRAN and the hash state: what absorbing makes of them depends on
nothing else, and however a byte sequence is split into commands they are left as by absorbing its bytes (R153, R159). -/

namespace Sys2Proof.Machine

/-- A command that carries input bytes is an UPDn. -/
theorem exec_eq_update {i : Instr} (hbytes : inputBytes i ≠ []) (s : State) : exec i s = update (inputBytes i) s := by
  cases i with
  | upd1 | upd2 | upd3 => rfl
  | _ => exact absurd rfl hbytes

/-- Above the count limit an UPDn raises Overflow (R153, R222). -/
theorem update_of_gt {bytes : List Byte} {s : State} (h : Config.countMax < s.cnt.toNat + bytes.length) :
    update bytes s = .next (raiseOverflow s) :=
  (update_cases bytes s).elim (fun ⟨hlimit, _⟩ => absurd h (Nat.not_lt_of_le hlimit)) And.right

/-- `TRAN`, `CNT`, `ACC` and `WIN`. -/
def streamState (s : State) : Vector Byte 256 × Count × Vector Count 256 × Vector WinSlot 4 := (s.tran, s.cnt, s.acc, s.win)

theorem streamState_eq_iff {s t : State} :
    streamState s = streamState t ↔ s.tran = t.tran ∧ s.cnt = t.cnt ∧ s.acc = t.acc ∧ s.win = t.win := by
  simp [streamState]

theorem streamState_accept (w : Word) (s : State) : streamState (accept w s) = streamState s := rfl

/-- The digest reads the hash state only (R181 to R184). -/
theorem digest_congr {s t : State} (h : streamState s = streamState t) : digest s = digest t := by
  obtain ⟨-, hcnt, hacc, -⟩ := streamState_eq_iff.mp h
  simp [digest, packedByte, bucketBit, threshold, hcnt, hacc]

theorem streamState_absorbAll_congr {s t : State} (h : streamState s = streamState t) (bytes : List Byte) :
    streamState (absorbAll s bytes) = streamState (absorbAll t bytes) := by
  induction bytes generalizing s t with
  | nil => exact h
  | cons b rest ih =>
    refine ih ?_
    obtain ⟨htran, hcnt, hacc, hwin⟩ := streamState_eq_iff.mp h
    simp [streamState, htran, hcnt, hacc, hwin]

/-- A command that keeps the stream and carries no bytes leaves these elements as they are (R159). -/
theorem CommandEffect.streamState_eq {s u : State} {i : Instr} (h : CommandEffect s i u) (hbytes : inputBytes i = [])
    (hkeeps : keepsStream i = true) : streamState u = streamState s := by
  cases h with
  | init | gen | twr => cases hkeeps
  | absorb hne | overflow hne => exact absurd hbytes hne
  | read | clearIll | dig => exact streamState_eq_iff.mpr ⟨rfl, rfl, rfl, rfl⟩

/-- Within the count limit a command that keeps the stream leaves these elements as absorbing its bytes does. -/
theorem exec_streamState {i : Instr} {s : State} (hkeeps : keepsStream i = true)
    (hlimit : s.cnt.toNat + (inputBytes i).length ≤ Config.countMax) :
    ∃ st data u, exec i s = .next (respond st data u) ∧ st ≠ .reserved ∧
      streamState u = streamState (absorbAll s (inputBytes i)) := by
  by_cases hbytes : inputBytes i = []
  · obtain ⟨st, data, u, he, hlegal, heffect⟩ := exec_effect i s
    refine ⟨st, data, u, he, Response.status_ne_reserved hlegal, ?_⟩
    rw [hbytes]
    exact heffect.streamState_eq hbytes hkeeps
  · exact ⟨_, _, _, (exec_eq_update hbytes s).trans (update_of_le hlimit), by decide, rfl⟩

theorem transact_streamState {i : Instr} {s : State} (hkeeps : keepsStream i = true)
    (hlimit : s.cnt.toNat + (inputBytes i).length ≤ Config.countMax) :
    ∃ t, transact (encode i) s = .next t ∧ streamState t = streamState (absorbAll s (inputBytes i)) := by
  obtain ⟨st, data, u, he, hst, hu⟩ := exec_streamState (s := accept (encode i) s) hkeeps hlimit
  exact ⟨_, finish_of_execWord ((execWord_command (decode_encode i) _).trans he) hst,
    hu.trans (streamState_absorbAll_congr (streamState_accept _ s) _)⟩

/-- R159: within the count limit, commands that keep the stream complete and leave these elements as absorbing all their bytes
one by one does. -/
theorem runCommands_streamState {xs : List Instr} {s : State} (hkeeps : ∀ i ∈ xs, keepsStream i = true)
    (hlimit : s.cnt.toNat + (xs.flatMap inputBytes).length ≤ Config.countMax) :
    ∃ t, runCommands xs s = .next t ∧ streamState t = streamState (absorbAll s (xs.flatMap inputBytes)) := by
  induction xs generalizing s with
  | nil => exact ⟨s, rfl, rfl⟩
  | cons i rest ih =>
    obtain ⟨hi, hrest⟩ := List.forall_mem_cons.mp hkeeps
    rw [List.flatMap_cons, List.length_append] at hlimit
    obtain ⟨t, ht, htState⟩ := transact_streamState (s := s) hi (by omega)
    obtain ⟨-, hcnt, -, -⟩ := streamState_eq_iff.mp htState
    have htcnt : t.cnt.toNat = s.cnt.toNat + (inputBytes i).length := by
      rw [hcnt, absorbAll_cnt_toNat (by omega)]
    obtain ⟨u, hu, huState⟩ := ih (s := t) hrest (by omega)
    refine ⟨u, by simp [runCommands, ht, hu], ?_⟩
    rw [huState, List.flatMap_cons, absorbAll_append]
    exact streamState_absorbAll_congr htState _

end Sys2Proof.Machine
end

section
namespace Sys2Proof.Proofs

open Sys2Proof.Machine Sys2Proof.Spec

/-- Settles O24: each slot of the fold adds to its own bucket, and the rows of R151 are the slots. -/
theorem absorbEffect : Obligations.AbsorbEffect := by
  intro s ch
  refine ⟨_, _, rfl, fun i => ?_, rfl, rfl, rfl, rfl⟩
  rw [entry_trigrams, trigramRows_eq, ← List.countP_eq_length_filter, List.countP_map]
  rfl

/-- Settles O26: a command with input bytes is `update` of them, which tests the limit once. -/
theorem countLimitRefusesWhole : Obligations.CountLimitRefusesWhole := by
  intro i s hbytes
  rw [exec_eq_update hbytes]
  exact ⟨fun hlimit => ⟨update_of_le hlimit, absorbAll_cnt_toNat hlimit⟩, update_of_gt⟩

/-- Settles O27: the arrays INIT writes are the fresh ones. -/
theorem initResult : Obligations.InitResult := fun _ =>
  ⟨accZero, winUnset, dbufZero, rfl, entry_accZero, fun k => winUnset_get k.isLt, fun m => dbufZero_get m.isLt⟩

/-- Settles O28: the sum is the invariant's, and an absorbed byte adds to it what it adds to `total`. -/
theorem trigramCountLaw : Obligations.TrigramCountLaw := by
  refine ⟨fun s hs => ?_, fun s ch hs _ => ?_⟩
  · have hinv := inv_reachable hs
    exact ⟨hinv.sum, fun i => hinv.sum ▸ entry_le_counterSum s.acc i, total_le hinv.count⟩
  · have hinv := inv_reachable hs
    have hgates := (total_succ_of_window hinv.window).symm.trans (total_succ s.cnt.toNat)
    rw [accSum_absorb hinv, Nat.add_left_cancel hgates]

/-- Settles O29: both sequences leave TRAN and the hash state as absorbing the bytes they share does. -/
theorem streamingEquivalence : Obligations.StreamingEquivalence := by
  intro s xs ys hxs hys hsame hlimit
  obtain ⟨t, ht, htState⟩ := runCommands_streamState hxs hlimit
  obtain ⟨u, hu, huState⟩ := runCommands_streamState hys (hsame ▸ hlimit)
  have htu : streamState t = streamState u := by rw [htState, huState, hsame]
  obtain ⟨htran, hcnt, hacc, hwin⟩ := streamState_eq_iff.mp htu
  obtain ⟨-, hcnt', hacc', hwin'⟩ := streamState_eq_iff.mp htState
  exact ⟨t, u, ht, hu, hcnt, hacc, hwin, htran, digest_congr htu, hcnt', hacc', hwin'⟩

end Sys2Proof.Proofs
end

section
/-! PROOFS. Numbers written by their bits and by their bytes: the sum of weighted bits (R183), and bytes read as one big-endian
number (R185). -/

namespace Sys2Proof.Machine

/-- The bits of R183, each weighted by its power of two, sum to the number that has them as its bits. -/
theorem sum_bits_eq_ofBits (f : Nat → Bool) (n : Nat) :
    ((List.range n).map fun b => (f b).toNat * 2 ^ b).sum = Nat.ofBits fun b : Fin n => f b := by
  induction n generalizing f with
  | zero => rfl
  | succ n ih =>
    have hhigh : ((List.range n).map fun b => (f (b + 1)).toNat * 2 ^ (b + 1)).sum =
        2 * ((List.range n).map fun b => (f (b + 1)).toNat * 2 ^ b).sum := by
      rw [← List.sum_map_mul_left]
      exact congrArg List.sum (List.map_congr_left fun b _ => by ring)
    rw [List.range_succ_eq_map, List.map_cons, List.map_map, List.sum_cons, Nat.ofBits_succ]
    simp only [Function.comp_def, Nat.succ_eq_add_one, hhigh, ih fun b => f (b + 1)]
    simp [Nat.add_comm]

/-- Bit `i` of a big-endian number is bit `i % 8` of the byte that has `i / 8` bytes after it. -/
theorem testBit_bigEndian (bytes : List Byte) (i : Nat) :
    (bytes.foldl (fun v (byte : Byte) => v * 256 + byte.toNat) 0).testBit i =
      (bytes.reverse.getD (i / 8) 0).getLsbD (i % 8) := by
  induction bytes using List.reverseRecOn generalizing i with
  | nil => simp
  | append_singleton bytes last ih =>
    rw [List.foldl_concat, List.reverse_concat, Nat.mul_comm, Nat.testBit_two_pow_mul_add (i := 8) _ last.isLt]
    split
    · rw [Nat.div_eq_of_lt ‹_›, Nat.mod_eq_of_lt ‹_›]
      rfl
    · obtain ⟨k, rfl⟩ := Nat.exists_eq_add_of_le (Nat.le_of_not_lt ‹_›)
      rw [Nat.add_sub_cancel_left, ih, Nat.add_div_left _ (by decide), Nat.add_mod_left]
      rfl

end Sys2Proof.Machine
end

section
/-! PROOFS. The digest extractor: the threshold on short inputs (R181), and the bit of every bucket in `P` and in the digest
(R182 to R185). -/

namespace Sys2Proof.Machine

theorem total_le_252 {c : Nat} (h : c ≤ 35) : total c ≤ 252 := by
  unfold total
  split_ifs <;> omega

/-- R181: up to 35 bytes the threshold is 0. -/
theorem threshold_eq_zero_of_le {s : State} (h : s.cnt.toNat ≤ 35) : threshold s = 0 :=
  Nat.div_eq_of_lt (Nat.lt_succ_of_le ((total_le_252 h).trans (by decide)))

/-- R182, in the terms of the array. -/
theorem bucketBit_eq (s : State) {i : Nat} (h : i < 256) : bucketBit s i = decide (s.acc[i].toNat > threshold s) := by
  simp [bucketBit, entry, Nat.mod_eq_of_lt h]

/-- R182 and R183: bit `b` of `P[m]` is the bit of bucket `8m + b`. -/
theorem getLsbD_packedByte (s : State) (m : Nat) {b : Nat} (h : b < 8) :
    (packedByte s m).getLsbD b = bucketBit s (8 * m + b) := by
  rw [packedByte, sum_bits_eq_ofBits fun b => bucketBit s (8 * m + b), BitVec.getLsbD_ofNat, Nat.testBit_ofBits_lt _ _ h]
  simp [h]

/-- R183: bucket `i` stands at bit `i mod 8` of `P[i div 8]`. -/
theorem getLsbD_packedByte_div_mod (s : State) (i : Nat) : (packedByte s (i / 8)).getLsbD (i % 8) = bucketBit s i := by
  rw [getLsbD_packedByte s _ (Nat.mod_lt i (by decide)), Nat.div_add_mod]

/-- R184. -/
@[simp] theorem digest_getElem (s : State) {m : Nat} (h : m < 32) : (digest s)[m] = packedByte s (31 - m) := by
  simp [digest]

/-- R184: read from its last byte, the digest is `P`. -/
theorem digest_reverse_getD (s : State) {m : Nat} (h : m < 32) : (digest s).toList.reverse.getD m 0 = packedByte s m := by
  have hm : 31 - (31 - m) = m := by omega
  simp [h, hm]

/-- R185: the digest's bits, by their buckets. -/
theorem getLsbD_digest (s : State) (m : Fin 32) (b : Fin 8) :
    (digest s)[m].getLsbD b.val = decide ((s.acc.toList.getD (8 * (31 - m.val) + b.val) 0).toNat > threshold s) := by
  have hi : 8 * (31 - m.val) + b.val < 256 := by omega
  rw [Fin.getElem_fin, digest_getElem, getLsbD_packedByte s _ b.isLt, bucketBit_eq s hi]
  simp [hi]

/-- Where no trigram has been observed, no bucket has been selected (R158). -/
theorem entry_eq_zero_of_total {s : State} (h : Inv s) (htotal : total s.cnt.toNat = 0) (i : Byte) : entry s.acc i = 0 := by
  have hle := entry_le_counterSum s.acc i
  rw [← accSum_eq, h.sum, htotal] at hle
  exact BitVec.eq_of_toNat_eq (Nat.le_zero.mp hle)

/-- R182: a bucket that was never selected has the bit 0. -/
theorem bucketBit_eq_false_of_entry {s : State} {i : Nat} (h : entry s.acc (BitVec.ofNat 8 i) = 0) : bucketBit s i = false := by
  simp [bucketBit, h]

end Sys2Proof.Machine
end

section
namespace Sys2Proof.Proofs

open Sys2Proof.Machine

/-- Settles O32: the formula is `total`'s own, and the sum of the counters is the invariant's. -/
theorem totalFormula : Obligations.TotalFormula := by
  refine ⟨fun c hc => if_pos hc, rfl, rfl, fun c hc => ?_, rfl, fun c => total_le, fun s hs => (inv_reachable hs).sum.symm⟩
  rw [total, if_neg (by omega), if_neg (by omega), if_neg (by omega)]

/-- Settles O33: shifting by 3 and masking with 7 are division by 8 and its remainder. -/
theorem digestPackingAndReversal : Obligations.DigestPackingAndReversal := by
  refine ⟨fun s i => ?_, fun s i => ?_, fun s m => digest_getElem s m.isLt⟩
  · rw [bucketBit_eq s i.isLt, decide_eq_true_iff]
    rfl
  · rw [Nat.shiftRight_eq_div_pow, Nat.and_two_pow_sub_one_eq_mod i.val 3]
    exact getLsbD_packedByte_div_mod s i.val

/-- Settles O34: the byte with `i / 8` bytes after it is `P[i / 8]`, so bit `i` of the number is bucket `i`'s. -/
theorem digestClosedForm : Obligations.DigestClosedForm := by
  refine fun s => ⟨getLsbD_digest s, fun i => ?_⟩
  rw [testBit_bigEndian, digest_reverse_getD s (by omega), getLsbD_packedByte_div_mod, bucketBit_eq s i.isLt]
  rfl

/-- Settles O35: a shift by 8 divides by 256, and the total is at most 252 up to 35 bytes. -/
theorem thresholdValue : Obligations.ThresholdValue := by
  refine fun s => ⟨rfl, (Nat.shiftRight_eq_div_pow _ 8).symm,
    fun h => ⟨total_le_252 h, threshold_eq_zero_of_le h⟩, fun h => ?_⟩
  rw [threshold, h]
  exact ⟨rfl, rfl⟩

/-- Settles O36: at most two bytes make no trigram, and below 36 bytes the threshold is 0. -/
theorem digestOfShortInputs : Obligations.DigestOfShortInputs := by
  refine fun s hinv => ⟨fun hcnt m => ?_, fun hcnt m b => ?_⟩
  · have hzero := entry_eq_zero_of_total hinv (if_pos (Nat.lt_succ_of_le hcnt))
    refine BitVec.eq_of_getLsbD_eq fun b hb => ?_
    rw [Fin.getElem_fin, digest_getElem, getLsbD_packedByte s _ hb, bucketBit_eq_false_of_entry (hzero _)]
    exact BitVec.getLsbD_zero.symm
  · rw [getLsbD_digest, threshold_eq_zero_of_le (Nat.le_of_lt_succ hcnt), decide_eq_true_iff, gt_iff_lt, Nat.pos_iff_ne_zero]
    exact BitVec.toNat_ne_iff_ne (y := 0)

/-- Settles O37: DIG answers the threshold's low 32 bits over the state with the digest in `DBUF`. -/
theorem digResult : Obligations.DigResult := exec_dig

end Sys2Proof.Proofs
end

section
/-! PROOFS. NOP and the window read-back (R200, R204). -/

namespace Sys2Proof.Machine

/-- The four fields of the word WRD reads are the window values, the most recent lowest (R204). -/
theorem winWord_byte (win : Vector WinSlot 4) (k : Fin 4) : (winWord win).extractLsb' (8 * k.val) 8 = win[k].val := by
  rw [winWord, fourBytes_eq_pack]
  match k with
  | 0 => exact b0_pack ..
  | 1 => exact b1_pack ..
  | 2 => exact b2_pack ..
  | 3 => exact opc_pack ..

end Sys2Proof.Machine
end

section
namespace Sys2Proof.Proofs

open Sys2Proof.Machine

/-- Settles O43: WRD answers the window word, and its bytes are the window values. -/
theorem wrdResult : Obligations.WrdResult := fun s => ⟨_, exec_wrd s, winWord_byte s.win⟩

/-- Settles O40: the command's arm is the statement. -/
theorem nopResult : Obligations.NopResult := exec_nop

end Sys2Proof.Proofs
end

section
namespace Sys2Proof.Proofs

open Sys2Proof.Machine

/-- Settles O44: a word that decodes to a command is that command's word, so this one is illegal, and Illegal is raised before
any count is read. -/
theorem illegalWordEffect : Obligations.IllegalWordEffect := by
  intro s w hw
  cases h : decode w with
  | command i => exact absurd (encode_of_decode h) (hw i)
  | illegal why => exact execWord_illegal h s

end Sys2Proof.Proofs
end

section
/-! PROOFS. The output ports: when the core is ready, and when it presents a response (R251, R255, R256). -/

namespace Sys2Proof.Machine

variable {c : Clocked}

/-- The phase in force is Idle in `Idle` and from the end of `ResetInit` on (R252). -/
theorem settled_phase_idle_iff :
    (settled c).phase = .idle ↔ c.core.phase = .idle ∨ c.core.phase = .resetInit ∧ c.left = 0 := by
  unfold settled
  split <;> simp [*]

/-- While a response is presented the ports carry its status and data, and the core is not ready (R256). -/
theorem outputs_of_rspPending {r : Response} (hp : c.core.phase = .rspPending r) :
    outputs c false = { cmdReady := false, rspValid := true, rspStatus := statusCode r.status, rspData := r.data } := by
  simp [outputs, hp]

/-- In every other phase, and while `rst = 1`, no response is presented (R251, R256). -/
theorem outputs_rspValid_eq_false {rst : Bool} (h : rst = true ∨ ∀ r, c.core.phase ≠ .rspPending r) :
    (outputs c rst).rspValid = false := by
  unfold outputs
  split
  · exact (h.resolve_left Bool.false_ne_true _ ‹_›).elim
  · rfl

/-- The core is ready exactly when the phase in force is Idle and `rst = 0` (R251, R255). -/
theorem outputs_cmdReady_iff {rst : Bool} :
    (outputs c rst).cmdReady = true ↔ rst = false ∧ (settled c).phase = .idle := by
  unfold outputs
  split
  · simp [settled_phase_idle_iff, *]
  · simp [cmdReady]

end Sys2Proof.Machine
end

section
/-! PROOFS. Reset, at an edge and at the command level (R251). -/

namespace Sys2Proof.Machine

open Sys2Proof.Spec

/-- What a reset leaves differs from `State.reset` only in the host's lists (R251). -/
theorem atReset_applyReset (s : State) : AtReset (applyReset s) := Proofs.resetStateValues

/-- An edge with `rst = 1` resets, whatever the phase (R251). -/
theorem edge_resets {c : Clocked} {p : PortsIn} (hv : violationAt c p = none) (hr : p.rst = true) :
    edge c p = .next (resetEdge c p) := by
  simp [edge, hv, hr]

end Sys2Proof.Machine
end

section
/-! PROOFS. An offered word that has not transferred: it stays on record, and the next edge tests it (R254, R260). -/

namespace Sys2Proof.Machine

variable {c c' : Clocked} {p : PortsIn}

theorem edge_refused {v : Violation} (hv : violationAt c p = some v) : edge c p = .refused (.protocolViolation v) := by
  simp [edge, hv]

/-- A word that is offered at an edge at which none transfers must stay offered, after a reset edge too (R254). -/
theorem EdgeEffect.offer_eq (h : EdgeEffect c p c') (hvalid : p.cmdValid = true)
    (hno : ¬ (p.rst = false ∧ (settled c).phase = .idle)) : c'.offer = some p.cmdData := by
  have hoffer : stillOffered p = some p.cmdData := if_pos hvalid
  cases h with
  | transfers hr hp => exact absurd ⟨hr, hp⟩ hno
  | _ => exact hoffer

/-- Dropping or changing the word on record breaks the protocol (R254, R260). -/
theorem violationAt_unstable {w : Word} (ho : c.offer = some w) (hg : p.rstGlitch = false)
    (hunstable : p.cmdValid = false ∨ p.cmdData ≠ w) : violationAt c p = some .commandUnstable := by
  have hdropped : ¬ (p.cmdValid = true ∧ p.cmdData = w) := by
    rintro ⟨hvalid, hdata⟩
    exact hunstable.elim (by simp [hvalid]) (· hdata)
  simp [violationAt, hg, ho, hdropped]

end Sys2Proof.Machine
end

section
/-! PROOFS. The way from a reset edge to the first ready cycle, while the host does nothing (R252). -/

namespace Sys2Proof.Machine

variable {c : Clocked}

/-- An edge at which `RST_LAT` has not run out counts one down (R252). -/
theorem edge_initializes {p : PortsIn} {n : Nat} (hv : violationAt c p = none) (hr : p.rst = false)
    (hp : c.core.phase = .resetInit) (hl : c.left = n + 1) : edge c p = .next (afterEdge c p c.core n) := by
  have hs : settled c = c.core := if_neg fun hready => by simp [hl] at hready
  simp [edge_eq_runEdge hv hr, runEdge, hs, hp, hl]

/-- A ready core that is offered nothing stays in Idle (R232). -/
theorem edge_stays_idle {p : PortsIn} (hv : violationAt c p = none) (hr : p.rst = false) (hi : (settled c).phase = .idle)
    (hc : p.cmdValid = false) : edge c p = .next (afterEdge c p (settled c) 0) := by
  simp [edge_eq_runEdge hv hr, runEdge, hi, hc]

/-- The core on its way out of `ResetInit`: there, or in the Idle that follows, where no edge is left to count; and no
word is offered. -/
structure Initializing (c : Clocked) : Prop where
  phase : c.core.phase = .resetInit ∨ c.core.phase = .idle ∧ c.left = 0
  offer : c.offer = none

theorem initializing_resetEdge {p : PortsIn} (hvalid : p.cmdValid = false) : Initializing (resetEdge c p) where
  phase := .inl rfl
  offer := by simp [resetEdge, stillOffered, hvalid]

/-- The core is ready once no edge is left to count (R252). -/
theorem Initializing.cmdReady_iff (h : Initializing c) : (outputs c false).cmdReady = true ↔ c.left = 0 := by
  rw [outputs_cmdReady_iff, settled_phase_idle_iff]
  obtain hp | ⟨hp, hl⟩ := h.phase
  · simp [hp]
  · simp [hp, hl]

/-- A quiet edge counts one down while there is one to count. -/
theorem Initializing.edge_quiet (h : Initializing c) :
    ∃ c', edge c quiet = .next c' ∧ Initializing c' ∧ c'.left = c.left - 1 := by
  have hv : violationAt c quiet = none := violationAt_quiet h.offer
  cases hl : c.left with
  | zero =>
    have hidle : (settled c).phase = .idle := settled_phase_idle_iff.mpr (h.phase.symm.imp And.left (⟨·, hl⟩))
    exact ⟨_, edge_stays_idle hv rfl hidle rfl, ⟨.inr ⟨hidle, rfl⟩, rfl⟩, rfl⟩
  | succ n =>
    have hp : c.core.phase = .resetInit := h.phase.resolve_right fun hidle => by simp [hl] at hidle
    exact ⟨_, edge_initializes hv rfl hp hl, ⟨.inl hp, rfl⟩, rfl⟩

/-- `n` quiet edges count `n` down, or what there is to count. -/
theorem Initializing.edges_quiet (h : Initializing c) (n : Nat) :
    ∃ c', edges c (List.replicate n quiet) = .next c' ∧ Initializing c' ∧ c'.left = c.left - n := by
  induction n generalizing c with
  | zero => exact ⟨c, rfl, h, rfl⟩
  | succ n ih =>
    obtain ⟨c₁, hedge, h₁, hleft₁⟩ := h.edge_quiet
    obtain ⟨c₂, hedges, h₂, hleft₂⟩ := ih h₁
    exact ⟨c₂, (edges_cons_of_next hedge _).trans hedges, h₂, by omega⟩

end Sys2Proof.Machine
end

section
/-! PROOFS. The digest snapshot: only DIG and INIT write `DBUF` (R257). -/

namespace Sys2Proof.Machine

open Host (Outcome)

theorem CommandEffect.dbuf_eq {s u : State} {i : Instr} (h : CommandEffect s i u) (hdig : i ≠ .dig) (hinit : i ≠ .init) :
    u.dbuf = s.dbuf := by
  cases h with
  | init => exact absurd rfl hinit
  | dig => exact absurd rfl hdig
  | absorb => exact absorbAll_dbuf ..
  | _ => rfl

/-- The effect of a command's word, when it is not `STAT.ILL` set, is that command's: no other command has its word. -/
theorem WordEffect.of_encode {s u : State} {i : Instr} (h : WordEffect s (encode i) u) :
    u = setIll s ∨ CommandEffect s i u := by
  obtain rfl | ⟨j, hj, he⟩ := h
  · exact .inl rfl
  · have hij : j = i := Decoded.command.inj (by rw [← decode_encode j, hj, decode_encode])
    exact .inr (hij ▸ he)

theorem transact_dbuf {s t : State} {i : Instr} (hdig : i ≠ .dig) (hinit : i ≠ .init)
    (h : transact (encode i) s = .next t) : t.dbuf = s.dbuf := by
  obtain ⟨r, u, -, he, rfl⟩ := finish_effect h
  obtain rfl | he := he.of_encode
  · rfl
  · exact he.dbuf_eq hdig hinit

theorem runCommands_cons {s u : State} {i : Instr} {rest : List Instr} (h : runCommands (i :: rest) s = .next u) :
    ∃ t, transact (encode i) s = .next t ∧ runCommands rest t = .next u := by
  rw [runCommands] at h
  split at h
  case h_1 t ht => exact ⟨t, ht, h⟩
  case h_2 | h_3 => cases h

/-- The snapshot outlives any commands but DIG and INIT (R257). -/
theorem runCommands_dbuf {cmds : List Instr} {s u : State} (hcmds : ∀ i ∈ cmds, i ≠ .dig ∧ i ≠ .init)
    (h : runCommands cmds s = .next u) : u.dbuf = s.dbuf := by
  induction cmds generalizing s with
  | nil => cases h; rfl
  | cons i rest ih =>
    obtain ⟨⟨hdig, hinit⟩, hrest⟩ := List.forall_mem_cons.mp hcmds
    obtain ⟨t, ht, hu⟩ := runCommands_cons h
    rw [ih hrest hu, transact_dbuf hdig hinit ht]

/-- DIG takes the snapshot of the digest (R187). -/
theorem dbuf_of_dig {s t : State} (h : exec .dig s = .next t) : t.dbuf = digest s := by
  rw [exec_dig, Outcome.next.injEq] at h
  rw [← h, respond_dbuf]

/-- INIT clears the snapshot (R154). -/
theorem dbuf_of_init {s t : State} (h : exec .init s = .next t) : t.dbuf = dbufZero := by
  cases h
  rfl

/-- A fresh snapshot reads as 0 at every word select (R53). -/
theorem dbufWord_dbufZero (ws : BitVec 3) : dbufWord dbufZero ws = 0 := by
  simp [dbufWord, fourBytes]

end Sys2Proof.Machine
end

section
namespace Sys2Proof.Proofs

open Sys2Proof.Machine Sys2Proof.Spec

/-- Settles O10: the edge is `resetEdge`, and `rst = 1` keeps both handshake lines of the core down. -/
theorem resetEdgeResetsEverything : Obligations.ResetEdgeResetsEverything := by
  refine ⟨fun c p hr hv => ⟨_, edge_resets hv hr, atReset_applyReset c.core, applyReset_taken c.core⟩,
    fun c => ⟨?_, ?_⟩⟩
  · exact Bool.eq_false_of_not_eq_true fun hready => by simpa using (outputs_cmdReady_iff.mp hready).1
  · exact outputs_rspValid_eq_false (.inl rfl)

/-- Settles O11: the step is `applyReset`, which keeps the host's lists. -/
theorem resetStepResetsEverything : Obligations.ResetStepResetsEverything := fun _ _ h =>
  ⟨_, step_rst h, atReset_applyReset _, applyReset_pending _, applyReset_taken _⟩

/-- Settles O39: the commands in between keep what DIG or INIT wrote, and DRD reads it. -/
theorem snapshotStaysUntilDigOrInit : Obligations.SnapshotStaysUntilDigOrInit := by
  intro s t u cmds ws hcmds hrun
  have hkept : u.dbuf = t.dbuf := runCommands_dbuf hcmds hrun
  refine ⟨fun hdig => ?_, fun hinit => ?_⟩
  · have hdbuf : u.dbuf = digest s := hkept.trans (dbuf_of_dig hdig)
    exact ⟨hdbuf, hdbuf ▸ exec_drd ws u⟩
  · have hdbuf : u.dbuf = dbufZero := hkept.trans (dbuf_of_init hinit)
    have hdrd : exec (.drd ws) u = .next (respond .ok 0 u) := by rw [exec_drd, hdbuf, dbufWord_dbufZero]
    exact ⟨fun m => hdbuf ▸ dbufZero_get m.isLt, hdrd⟩

/-- Settles O54: readiness is the phase in force, and the edge that makes a word Busy is a wait or a transfer. -/
theorem readyExactlyWhenIdle : Obligations.ReadyExactlyWhenIdle := by
  refine ⟨fun c => outputs_cmdReady_iff.trans (and_iff_right rfl), fun c rst h => ?_, fun c c' p w h hbusy => ?_⟩
  · refine Bool.eq_false_of_not_eq_true fun hready => ?_
    have hidle := settled_phase_idle_iff.mp (outputs_cmdReady_iff.mp hready).2
    obtain ⟨w, hp⟩ | ⟨r, hp⟩ := h <;> simp [hp] at hidle
  · cases (edge_effect h).2 with
    | transfers hr hp hc =>
      exact .inr ⟨outputs_cmdReady_iff.mpr ⟨hr, hp⟩, hc, Phase.busy.inj hbusy⟩
    | waits => exact .inl hbusy
    | completes _ _ _ he =>
      obtain ⟨st, data, u, he', -⟩ := execWord_responds _ c.core
      cases he.symm.trans he'
      cases hbusy
    | reset | delivers => cases hbusy
    | initializes _ hp | stays _ hp | holds _ hp => cases hp.symm.trans hbusy

/-- Settles O55: a ready core that is offered a word accepts it, and a Busy core presents nothing. -/
theorem commandTransfer : Obligations.CommandTransfer := by
  intro c p hv hr hready hvalid
  have hidle := (outputs_cmdReady_iff.mp hready).2
  have hcore : accept p.cmdData (settled c) = { c.core with phase := .busy p.cmdData } := by rw [settled_eq c]; rfl
  exact ⟨_, edge_transfers hv hr hidle hvalid, hcore, rfl, rfl, outputs_rspValid_eq_false (.inr fun r => by simp)⟩

/-- Settles O56: the four edges from Busy and RspPending, and what the ports carry in those phases. -/
theorem responseHeldUntilTaken : Obligations.ResponseHeldUntilTaken := by
  refine ⟨fun c p w n hv hr hbusy hleft => ?_, fun c p w hv hr hbusy hleft => ?_, fun c p r hv hr hp hwait => ?_,
    fun c p r hv hr hp hst htake => ?_⟩
  · exact ⟨_, edge_busy_waits hv hr hbusy hleft, rfl, rfl,
      outputs_rspValid_eq_false (.inr fun r => by simp [afterEdge, hbusy])⟩
  · obtain ⟨st, data, u, he, -⟩ := execWord_responds w c.core
    have hports := outputs_of_rspPending (c := afterEdge c p (respond st data u) 0) (respond_phase st data u)
    exact ⟨_, ⟨st, data⟩, edge_busy_completes hv hr hbusy hleft he, he, respond_phase st data u, by simp [hports]⟩
  · refine ⟨_, edge_response_held hv hr hp hwait, rfl, ?_⟩
    rw [outputs_of_rspPending hp, outputs_of_rspPending (c := afterEdge c p c.core 0) hp]
  · exact ⟨_, edge_response_taken hv hr hp htake (deliver_rspPending hp hst), rfl⟩

/-- Settles O58: an offered word that has not transferred is on record at the next edge, and no test reads `rsp_ready`. -/
theorem protocolViolationsAreRefused : Obligations.ProtocolViolationsAreRefused := by
  refine ⟨fun c p hg => edge_refused (if_pos hg), fun c c' p q h hvalid hno hg hunstable => ?_, fun _ _ _ => rfl⟩
  have hidle : ¬ (p.rst = false ∧ (settled c).phase = .idle) := fun ⟨hr, hp⟩ =>
    hno ⟨hr, outputs_cmdReady_iff.mpr ⟨rfl, hp⟩⟩
  have hoffer : c'.offer = some p.cmdData := (edge_effect h).2.offer_eq hvalid hidle
  exact edge_refused (violationAt_unstable hoffer hg hunstable)

/-- Settles O59: the count starts at `RST_LAT`, goes down at every quiet edge, and the core is ready when it is 0. -/
theorem readyAfterResetLatency : Obligations.ReadyAfterResetLatency := by
  intro c p n hv hr hvalid
  obtain ⟨c', hedges, hinit, hleft⟩ := (initializing_resetEdge hvalid).edges_quiet (c := resetEdge c p) n
  refine ⟨_, c', edge_resets hv hr, hedges, ?_⟩
  rw [hinit.cmdReady_iff, hleft]
  exact Nat.sub_eq_zero_iff_le

end Sys2Proof.Proofs
end
